-- ==== Sys2Proof/Word.lean ====
section
/-! DEFINITION. The widths of MIRAGE-CORE: 32-bit bus words, the 16-bit CRC register, bytes, 12-bit aperture offsets
(spec rules R10, R11, R14, R16, R41). -/

namespace Sys2Proof

/-- One word of the host bus, `XLEN = 32` bits (R11). -/
abbrev Word := BitVec 32

/-- The CRC register's width, `CRC_WIDTH = 16` bits (R10, R22). -/
abbrev Half := BitVec 16

/-- One byte (R10, R14). -/
abbrev Byte := BitVec 8

/-- A byte offset in the aperture, `0 .. 4095` (R41): 12 bits hold exactly those. -/
abbrev Offset := BitVec 12

end Sys2Proof
end

