-- ==== Sys2Proof/Syntax.lean ====
section
/-! DEFINITION. The commands of MIRAGE-CORE, one constructor per row of spec/opcode_table.json (R58), and the
buffer select of rule R59. -/

namespace Sys2Proof

/-- The buffer a `SEL` field names: 0 is `A`, 1 is `B` (R59). -/
inductive Sel where
  | a
  | b
  deriving DecidableEq, Repr

/-- The buffer `SEL` does not name, `T` in the command rules (R59). -/
def Sel.other : Sel → Sel
  | .a => .b
  | .b => .a

/-- The nine commands (R58), each with the operand fields its opcode uses (R63). -/
inductive Instr where
  /-- `NOP` (R86). -/
  | nop
  /-- `F2C` (R71). -/
  | f2c
  /-- `C2F` (R72). -/
  | c2f
  /-- `B2S`, `sel` the destination (R74). -/
  | b2s (sel : Sel)
  /-- `S2B`, `sel` the source (R75). -/
  | s2b (sel : Sel)
  /-- `XOR`, `sel` the destination (R77). -/
  | xor (sel : Sel)
  /-- `CRC_INIT` (R81). -/
  | crcInit
  /-- `CRC_STEP`, the input byte and the bit count (R82); the count is legal in 0..8 (R60). -/
  | crcStep (data : Byte) (n : BitVec 4)
  /-- `CRC_PKT` (R83). -/
  | crcPkt
  deriving DecidableEq, Repr

end Sys2Proof
end

