-- ==== Sys2Proof/WellFormed.lean ====
section
/-! DEFINITION. Which instruction terms a command word can carry. The one check is the count of `CRC_STEP`; every
other operand's range is its type's. -/

namespace Sys2Proof

/-- The largest legal count of `CRC_STEP`: "legal 0..8" (R57, R60). -/
def maxBitCount : BitVec 4 := 8#4

/-- An instruction term is well formed when its operands are legal: `N` of `CRC_STEP` is at most 8 (R60, R65). -/
def WellFormed : Instr → Bool
  | .crcStep _ n => decide (n ≤ maxBitCount)
  | .nop | .f2c | .c2f | .b2s _ | .s2b _ | .xor _ | .crcInit | .crcPkt => true

end Sys2Proof
end

