-- ==== Sys2Proof/Decode.lean ====
section
/-! DEFINITION. The decoder of command words, written from the match and mask table of rule R63 and the search of rule
R65, and the encoder, written from the field layout of rule R57. -/

namespace Sys2Proof

/-- Why a command word is illegal: the four causes rule R89 lists under `ILLEGAL`. All four have the same effect (R65). -/
inductive Illegal where
  /-- An opcode `0x9` to `0xF` (R64). -/
  | reservedOpcode
  /-- One of the bits 31..24, 15..12, 7..5 is set (R62). -/
  | reservedBit
  /-- A field the opcode does not use is not 0 (R63). -/
  | unusedField
  /-- `CRC_STEP` with `N > 8` (R60). -/
  | countOver8
  deriving DecidableEq, Repr

/-- What a command word is: exactly one command, or illegal (R64). -/
inductive Decoded where
  | instr (i : Instr)
  | illegal (why : Illegal)
  deriving DecidableEq, Repr

/-- The opcodes of rule R58. -/
inductive Op where
  | nop | f2c | c2f | b2s | s2b | xor | crcInit | crcStep | crcPkt
  deriving DecidableEq, Repr

/-- One row of the match and mask table (R63). -/
structure Row where
  op : Op
  pattern : Word
  mask : Word
  deriving DecidableEq, Repr

/-- The table of rule R63, in its order. -/
def rows : List Row :=
  [ ⟨.nop,     0x00000000#32, 0xFFFFFFFF#32⟩,
    ⟨.f2c,     0x00000001#32, 0xFFFFFFFF#32⟩,
    ⟨.c2f,     0x00000002#32, 0xFFFFFFFF#32⟩,
    ⟨.b2s,     0x00000003#32, 0xFFFFFFEF#32⟩,
    ⟨.s2b,     0x00000004#32, 0xFFFFFFEF#32⟩,
    ⟨.xor,     0x00000005#32, 0xFFFFFFEF#32⟩,
    ⟨.crcInit, 0x00000006#32, 0xFFFFFFFF#32⟩,
    ⟨.crcStep, 0x00000007#32, 0xFF00F0FF#32⟩,
    ⟨.crcPkt,  0x00000008#32, 0xFFFFFFFF#32⟩ ]

/-- The field `OP`, bits 3:0 (R57). -/
def opField (v : Word) : BitVec 4 := v.extractLsb' 0 4

/-- The field `SEL`, bit 4 (R57, R59). -/
def selField (v : Word) : Sel := if v.getLsbD 4 then .b else .a

/-- The field `N`, bits 11:8 (R57, R60). -/
def countField (v : Word) : BitVec 4 := v.extractLsb' 8 4

/-- The field `DATA`, bits 23:16 (R57, R61). -/
def dataField (v : Word) : Byte := v.extractLsb' 16 8

/-- The extra condition of a row: `v[11:8] <= 8` for `CRC_STEP`, none for the others (R63). -/
def Row.cond (r : Row) (v : Word) : Bool :=
  match r.op with
  | .crcStep => decide (countField v ≤ maxBitCount)
  | .nop | .f2c | .c2f | .b2s | .s2b | .xor | .crcInit | .crcPkt => true

/-- Match, mask and extra condition hold (R65). -/
def Row.hits (r : Row) (v : Word) : Bool := decide (v &&& r.mask = r.pattern) && r.cond v

/-- The instruction of opcode `op` with the operand fields of `v` (R65: `SEL = v[4], N = v[11:8], DATA = v[23:16]`). -/
def Op.build (op : Op) (v : Word) : Instr :=
  match op with
  | .nop => .nop
  | .f2c => .f2c
  | .c2f => .c2f
  | .b2s => .b2s (selField v)
  | .s2b => .s2b (selField v)
  | .xor => .xor (selField v)
  | .crcInit => .crcInit
  | .crcStep => .crcStep (dataField v) (countField v)
  | .crcPkt => .crcPkt

/-- The reserved bits 31..24, 15..12 and 7..5 (R62). -/
def reservedMask : Word := 0xFF00F0E0#32

/-- The cause of an illegal word, in the order of rule R89's list. -/
def illegalWhy (v : Word) : Illegal :=
  if 9#4 ≤ opField v then .reservedOpcode
  else if v &&& reservedMask ≠ 0#32 then .reservedBit
  else if opField v = 7#4 ∧ v.getLsbD 4 = false then .countOver8
  else .unusedField

/-- The decoder, total on every word: the first row that matches, else illegal (R65; U6). -/
def decode (v : Word) : Decoded :=
  match rows.find? (fun r => r.hits v) with
  | some r => .instr (r.op.build v)
  | none => .illegal (illegalWhy v)

/-- The bit a `SEL` field holds (R59). -/
def Sel.bit : Sel → BitVec 1
  | .a => 0#1
  | .b => 1#1

/-- A command word from its fields, bit 31 first: `00000000 DDDDDDDD 0000 NNNN 000 S OOOO` (R57). -/
def commandWord (data : Byte) (n : BitVec 4) (sel : BitVec 1) (op : BitVec 4) : Word :=
  0#8 ++ data ++ 0#4 ++ n ++ 0#3 ++ sel ++ op

/-- The word of an instruction: the opcode of rule R58, unused fields 0 (R63). -/
def encode : Instr → Word
  | .nop => commandWord 0#8 0#4 0#1 0#4
  | .f2c => commandWord 0#8 0#4 0#1 1#4
  | .c2f => commandWord 0#8 0#4 0#1 2#4
  | .b2s sel => commandWord 0#8 0#4 sel.bit 3#4
  | .s2b sel => commandWord 0#8 0#4 sel.bit 4#4
  | .xor sel => commandWord 0#8 0#4 sel.bit 5#4
  | .crcInit => commandWord 0#8 0#4 0#1 6#4
  | .crcStep data n => commandWord data n 0#1 7#4
  | .crcPkt => commandWord 0#8 0#4 0#1 8#4

/-- The word of the `CMD` write that carries an instruction given as the opcode table numbers its bits: one 32-bit bus
word (R66), the bits above `nbits` 0. -/
def tableWord (nbits w : Nat) : Word := BitVec.ofNat 32 (w % 2 ^ nbits)

/-- The instruction the decoder reads from an instruction whose bits are `w`; none for an illegal word, and none for
more than the one word a command has (R66). -/
def decodeTableWord (nbits w : Nat) : Option Instr :=
  if 32 < nbits then none
  else
    match decode (tableWord nbits w) with
    | .instr i => some i
    | .illegal _ => none

end Sys2Proof
end

