-- ==== Sys2Proof/Config.lean ====
section
/-! DEFINITION. What an implementation fixes, and the free values. The parameters rules R10 and R11 give a value are
definitions; the ones the spec leaves open are constants without a body, so that no proof can see them. -/

namespace Sys2Proof

/-- `POLY`, the generator polynomial without its leading term (R10). -/
def Config.poly : Half := 0x1021#16

/-- `CRC_INIT`, the CRC register's initial value for a packet (R10). -/
def Config.crcInit : Half := 0xFFFF#16

/-- `CHAN_OFFSET`, the frequency of channel 0 in MHz (R10). -/
def Config.chanOffset : Word := 2400#32

/-- `NBYTES`, the capacity of `BUF` in bytes (R11). -/
abbrev Config.nBytes : Nat := 64

/-- `NBITS`, the capacity of `A` and of `B` in positions (R11). -/
abbrev Config.nBits : Nat := 512

/-- `APERTURE`, the size of the address window in bytes (R11, R41). -/
abbrev Config.aperture : Nat := 4096

/-- `BASE / 4096`: `BASE` is OPEN, a multiple of 4096 (R11, R41, U13). Log entry 5. -/
opaque Config.basePage : Nat

/-- `BASE`, the host address of offset 0 (R41). -/
def Config.base : Nat := Config.aperture * Config.basePage

/-- What an unwritten byte `k` of `BUF` reads as at draw number `draw` (R27, R107, U1: a fresh draw per read).
A free value: nothing constrains it. Log entry 1. -/
opaque Config.freeByte (draw k : Nat) : Byte

/-- What an unwritten position `p` of the buffer `sel` reads as at draw number `draw` (R27, R107, U1). A free value.
Log entry 1. -/
opaque Config.freeBit (draw : Nat) (sel : Sel) (p : Nat) : Bool

/-- Which of several waiting agents the interconnect serves, at draw number `draw` (R52, U10: "a free choice, a draw, at
every step"). A free value, read modulo the number of waiting agents. Log entry 2. -/
opaque Config.arbiter (draw : Nat) : Nat

end Sys2Proof
end

