-- ==== Sys2Proof/Machine/State.lean ====
section
/-! DEFINITION. The state of MIRAGE-CORE as plain data: the block's registers and buffers (R18), the reset input (R99),
and the outside of the block that a run needs: the accesses waiting at its port, the answers given, and the draw
counter. -/

namespace Sys2Proof.Machine

/-- A sparse memory: key and value pairs in one canonical form, keys strictly rising. A key that is not listed holds no
value: the element is unwritten (R27, U1). `Memory Byte` is a list of `Host.Cell`. -/
abbrev Memory (α : Type) := List (Nat × α)

/-- The codes of `STATUS.ERR` (R28). Codes 5..15 are never written, so they have no constructor (U7). -/
inductive ErrCode where
  /-- 0: every command that succeeds. -/
  | none
  /-- 1: an illegal command word (R65). -/
  | illegal
  /-- 2: `XOR` with `LEN_A != LEN_B` (R77). -/
  | lengthMismatch
  /-- 3: `CRC_PKT` with `BUF_LEN = 0` (R83). -/
  | invalidInput
  /-- 4: a length write above its maximum (R31). -/
  | range
  deriving DecidableEq, Repr

/-- The width of a host access: 32 bits is the one the block accepts; 8, 16, 64 bits and bursts get a bus error (R43). -/
inductive AccessWidth where
  | w8
  | w16
  | w32
  | w64
  | burst
  deriving DecidableEq, Repr

/-- What can happen at the block's port: a host read or write (R48, R49), or an edge of the reset input (R99). Of a
write's data 32 bits are held; an access of any other width has no effect whatever its data (R43). -/
inductive BusEvent where
  | read (width : AccessWidth) (off : Offset)
  | write (width : AccessWidth) (off : Offset) (v : Word)
  | assertReset
  | releaseReset
  deriving DecidableEq, Repr

/-- What the block answers to an access. -/
inductive Answer where
  /-- A completed read and its value (R48). -/
  | data (v : Word)
  /-- A completed write (R49, R51). -/
  | done
  /-- An access that met the asserted reset, which accepts none (R99). Log entry 6. -/
  | notAccepted
  deriving DecidableEq, Repr

/-- An answer and the number of the agent (its place in `streams`) whose access it answers. -/
structure Reply where
  master : Nat
  answer : Answer
  deriving DecidableEq, Repr

/-- Why the machine stops with a fault. -/
inductive Fault where
  /-- `raise BusError(off)` (R43, R92): raised by any host access that is not 32 bits wide or not aligned, before the offset
  is decoded (R91). "A model treats a bus error as a fault of the host's program, whatever the bus" (R92, U9). Safe:
  the block itself would answer with an error, change no state and go on. -/
  | busError (off : Offset)
  deriving DecidableEq, Repr

/-- Why the machine refuses. -/
inductive Refusal where
  /-- Raised by an arm of `exec` that has no meaning yet, naming the table's mnemonic; no arm is such an arm. Safe: it
  stops where the hardware goes on. -/
  | notModelled (mnemonic : String)
  deriving DecidableEq, Repr

/-- The machine's state. The fields from `opa` to `err` are exactly the architectural state of rule R18. -/
structure State where
  /-- `OPA`, the mapper operand (R20). -/
  opa : Word
  /-- `RES`, the mapper result (R21). -/
  res : Word
  /-- `CRC`, the CRC register (R22). -/
  crc : Half
  /-- `BUF[0 .. 63]`, keyed by the byte's number; an unlisted byte is unwritten (R24, R27). -/
  buf : List Host.Cell
  /-- `BUF_LEN`, 0..64 (R24). -/
  bufLen : Fin 65
  /-- `A[0 .. 511]`, keyed by the position; an unlisted position is unwritten (R25, R27). -/
  a : List (Nat × Bool)
  /-- `LEN_A`, 0..512 (R25). -/
  lenA : Fin 513
  /-- `B[0 .. 511]`, keyed by the position; an unlisted position is unwritten (R25, R27). -/
  b : List (Nat × Bool)
  /-- `LEN_B`, 0..512 (R25). -/
  lenB : Fin 513
  /-- `STATUS.ERR` (R28). -/
  err : ErrCode
  /-- The reset input is asserted (R99). -/
  inReset : Bool
  /-- The events each agent (a bus master, or the driver of the reset input) is still to present, oldest first (R50, R52).
  The model's own field, log entry 4. -/
  streams : List (List BusEvent)
  /-- The answers to the completed accesses, oldest first (R110). The model's own field, log entry 4. -/
  replies : List Reply
  /-- How many draws have been made. The model's own field, log entry 3: no statement rests on its value. -/
  draws : Nat
  deriving DecidableEq, Repr

/-- The machine right after reset is released (R100, R101): no storage element is written (R27), and no host has an access
waiting. -/
def State.reset : State where
  opa := 0#32
  res := 0#32
  crc := 0xFFFF#16
  buf := []
  bufLen := 0
  a := []
  lenA := 0
  b := []
  lenB := 0
  err := .none
  inReset := false
  streams := []
  replies := []
  draws := 0

/-- What a step or a meaning answers. -/
abbrev Out := Host.Outcome State Fault Refusal

end Sys2Proof.Machine
end

