-- ==== Sys2Proof/Machine/Ops.lean ====
section
/-! DEFINITION. The named operations over memories and registers. MIRAGE-CORE takes no exception and has no return from one
(R88, R94, R95): the shared operation a failing command ends in is `fail`, in Flags.lean, and the one thing that
replaces the whole block state is reset, here. -/

namespace Sys2Proof.Machine

/-- The value a memory holds at a key, none where the element is unwritten. -/
def Memory.read {α : Type} : Memory α → Nat → Option α
  | [], _ => none
  | (j, w) :: m, k => if j = k then some w else Memory.read m k

/-- Writes one element, keeping the keys strictly rising. -/
def Memory.write {α : Type} : Memory α → Nat → α → Memory α
  | [], k, v => [(k, v)]
  | (j, w) :: m, k, v =>
    if k < j then (k, v) :: (j, w) :: m
    else if k = j then (k, v) :: m
    else (j, w) :: Memory.write m k v

/-- Writes the `n` elements from `start` on, the `i`-th of them with `f i`. -/
def Memory.fill {α : Type} (m : Memory α) (start : Nat) (f : Nat → α) : Nat → Memory α
  | 0 => m
  | n + 1 => Memory.write (Memory.fill m start f n) (start + n) (f n)

/-- The canonical form: the keys rise strictly. (No value stands for an unwritten element, so no entry can repeat it.) -/
abbrev Memory.wf {α : Type} (m : Memory α) : Prop := m.Pairwise (fun x y => x.1 < y.1)

/-- Every listed key is below the buffer's capacity (R24, R25). -/
abbrev Memory.below {α : Type} (n : Nat) (m : Memory α) : Prop := ∀ c ∈ m, c.1 < n

/-- `RES <- v`. -/
def State.setRes (s : State) (v : Word) : State := { s with res := v }

/-- `OPA <- v` (R33). -/
def State.setOpa (s : State) (v : Word) : State := { s with opa := v }

/-- `CRC <- v`. -/
def State.setCrc (s : State) (v : Half) : State := { s with crc := v }

/-- The byte buffer's contents become `m`. -/
def State.setBuf (s : State) (m : Memory Byte) : State := { s with buf := m }

/-- `BUF_LEN <- n`. -/
def State.setBufLen (s : State) (n : Fin 65) : State := { s with bufLen := n }

/-- The contents of the bit-string buffer `sel` become `m`. -/
def State.setBits (s : State) (sel : Sel) (m : Memory Bool) : State :=
  match sel with
  | .a => { s with a := m }
  | .b => { s with b := m }

/-- `LEN_S <- n`. -/
def State.setLen (s : State) (sel : Sel) (n : Fin 513) : State :=
  match sel with
  | .a => { s with lenA := n }
  | .b => { s with lenB := n }

/-- `STATUS.ERR <- c` (R28). -/
def State.setErr (s : State) (c : ErrCode) : State := { s with err := c }

/-- The draw is used up: the next read of unwritten storage uses another one (U1). -/
def State.draw (s : State) : State := { s with draws := s.draws + 1 }

/-- Records the answer to an access of agent `master` (R110). -/
def State.reply (s : State) (master : Nat) (answer : Answer) : State :=
  { s with replies := s.replies ++ [⟨master, answer⟩] }

/-- Reset is asserted: the block's state is the reset state, every storage element unwritten, whatever it was (R99, R100).
What lies outside the block (pending accesses, answers given, draws made) stays. -/
def State.assertReset (s : State) : State :=
  { s with
    opa := 0#32, res := 0#32, crc := Config.crcInit
    buf := [], bufLen := 0
    a := [], lenA := 0
    b := [], lenB := 0
    err := .none, inReset := true }

/-- Reset is released: the block accepts accesses at once (R101). -/
def State.releaseReset (s : State) : State := { s with inReset := false }

end Sys2Proof.Machine
end

