-- ==== Sys2Proof/Machine/Flags.lean ====
section
/-! DEFINITION. The one flag, `STATUS.ERR` (R28, R39): its codes, and the two ways a command ends (R15, R90). -/

namespace Sys2Proof.Machine

/-- The 4-bit code of an outcome (R28). -/
def ErrCode.code : ErrCode → BitVec 4
  | .none => 0#4
  | .illegal => 1#4
  | .lengthMismatch => 2#4
  | .invalidInput => 3#4
  | .range => 4#4

/-- `succeed`: the command ends with `STATUS.ERR <- NONE` after its writes (R15, R90). -/
def succeed (s : State) : Out := .next (s.setErr .none)

/-- `fail(code)`: the command ends, `STATUS.ERR <- code`, and no other state changes (R15, R90). -/
def fail (c : ErrCode) (s : State) : Out := .next (s.setErr c)

end Sys2Proof.Machine
end

