-- ==== Sys2Proof/Machine/Operands.lean ====
section
/-! DEFINITION. Every operand form of the commands: the buffer a `SEL` names (R59), one byte of `BUF` and one position of
`A` or `B` as a command or a window reads it (R27), the byte sequence and the bit strings (R13, R14), and the
most-significant-bit-first packing of positions into bytes and words (R36, R37, R46). -/

namespace Sys2Proof.Machine

/-- The contents of the buffer `sel` names (R59). -/
def State.bits (s : State) : Sel → Memory Bool
  | .a => s.a
  | .b => s.b

/-- The length of the buffer `sel` names (R59). -/
def State.len (s : State) : Sel → Fin 513
  | .a => s.lenA
  | .b => s.lenB

/-- `BUF[k]`; a free value where nothing has written it since reset (R27, U1). -/
def State.byteAt (s : State) (k : Nat) : Byte :=
  (Memory.read s.buf k).getD (Config.freeByte s.draws k)

/-- `S[p]`; a free value where nothing has written it since reset (R27, U1). -/
def State.bitAt (s : State) (sel : Sel) (p : Nat) : Bool :=
  (Memory.read (s.bits sel) p).getD (Config.freeBit s.draws sel p)

/-- The byte sequence `BUF[0 .. BUF_LEN)` (R14, R24). -/
def State.byteSeq (s : State) : List Byte := (List.range s.bufLen.val).map s.byteAt

/-- The bit string `S[0 .. LEN_S)` (R13, R25). -/
def State.bitString (s : State) (sel : Sel) : List Bool :=
  (List.range (s.len sel).val).map (s.bitAt sel)

/-- Position `p` of the string in `S`, zero past its end: "pad bits are 0, never read from storage" (R75). -/
def State.paddedBit (s : State) (sel : Sel) (p : Nat) : Bool :=
  if p < (s.len sel).val then s.bitAt sel p else false

/-- Packs the positions `f 0, …, f (n-1)` into `n` bits, the first one most significant (R37, R46). -/
def packMsb : (n : Nat) → (Nat → Bool) → BitVec n
  | 0, _ => 0#0
  | n + 1, f => BitVec.concat (packMsb n f) (f n)

/-- Byte lane `i` of a bus word, lane 0 the most significant (R36). -/
def lane (v : Word) (i : Nat) : Byte := v.extractLsb' (24 - 8 * i) 8

/-- Position `j` of a 32-position bus word, position 0 the most significant bit (R37). -/
def wordBit (v : Word) (j : Nat) : Bool := v.getLsbD (31 - j)

/-- The number of bytes that hold `L` positions, `ceil(L / 8)` (R15, R75). -/
def bytesFor (L : Nat) : Nat := (L + 7) / 8

end Sys2Proof.Machine
end

