-- ==== Sys2Proof/Machine/Codec.lean ====
section
/-! DEFINITION. The bit/byte codec (41_codec.md). -/

namespace Sys2Proof.Machine

/-- Position `p` of the string that `B2S` makes: `BUF[k][7 - j]` at `p = 8k + j` (R74). -/
def State.codecBit (s : State) (p : Nat) : Bool := (s.byteAt (p / 8)).getLsbD (7 - p % 8)

/-- Byte `k` of the sequence that `S2B` makes: positions `8k .. 8k+7`, the first most significant, zero past the string's
end (R75). -/
def State.codecByte (s : State) (sel : Sel) (k : Nat) : Byte :=
  packMsb 8 (fun j => s.paddedBit sel (8 * k + j))

/-- `B2S`: writes `S[0 .. 8*BUF_LEN)` and `LEN_S <- 8*BUF_LEN`, which always fits (R74). -/
def execB2S (sel : Sel) (s : State) : Out :=
  succeed
    (((s.setBits sel (Memory.fill (s.bits sel) 0 s.codecBit (8 * s.bufLen.val))).setLen sel
      ⟨8 * s.bufLen.val, by have := s.bufLen.isLt; omega⟩).draw)

/-- `S2B`: writes `BUF[0 .. ceil(LEN_S/8))` and `BUF_LEN <- ceil(LEN_S/8)`, which always fits (R75). -/
def execS2B (sel : Sel) (s : State) : Out :=
  succeed
    (((s.setBuf (Memory.fill s.buf 0 (s.codecByte sel) (bytesFor (s.len sel).val))).setBufLen
      ⟨bytesFor (s.len sel).val, by have := (s.len sel).isLt; unfold bytesFor; omega⟩).draw)

end Sys2Proof.Machine
end

