-- ==== Sys2Proof/Machine/Combinator.lean ====
section
/-! DEFINITION. The bitwise combinator (42_combinator.md). -/

namespace Sys2Proof.Machine

/-- `XOR`: the lengths are compared before any position is read or written; equal lengths give `S[p] <- A[p] ^ B[p]`
for every `p < LEN_A`, both read before `S[p]` is written (R77). -/
def execXor (sel : Sel) (s : State) : Out :=
  if s.lenA ≠ s.lenB then fail .lengthMismatch s
  else
    succeed
      ((s.setBits sel
        (Memory.fill (s.bits sel) 0 (fun p => Bool.xor (s.bitAt .a p) (s.bitAt .b p)) s.lenA.val)).draw)

end Sys2Proof.Machine
end

