-- ==== Sys2Proof/Machine/Control.lean ====
section
/-! DEFINITION. The control command (44_control.md). -/

namespace Sys2Proof.Machine

/-- `NOP`: nothing except reporting success (R86). -/
def execNop (s : State) : Out := succeed s

end Sys2Proof.Machine
end

