-- ==== Sys2Proof/Machine/Crc.lean ====
section
/-! DEFINITION. The CRC engine (43_crc.md): the 16-bit working value of conflict C1, the last byte of a packet with one
iteration only (R80, C2). -/

namespace Sys2Proof.Machine

/-- One iteration of step 2: shift left, then XOR with the polynomial when the bit shifted out was 1 (R79). -/
def crcShift (w : Half) : Half :=
  if w.getLsbD 15 then (w <<< 1) ^^^ Config.poly else w <<< 1

/-- `n` iterations (R79). -/
def crcIterate : Nat → Half → Half
  | 0, w => w
  | n + 1, w => crcIterate n (crcShift w)

/-- `CrcStep(r, b, n)`: the byte enters bits 15..8, then `n` iterations (R61, R79). -/
def crcStep (r : Half) (b : Byte) (n : Nat) : Half :=
  crcIterate n (r ^^^ (b.setWidth 16 <<< 8))

/-- The loop of `CalcCrc` from register `r`: 8 iterations for every byte except the last, one for the last (R80). -/
def crcBytes (r : Half) : List Byte → Half
  | [] => r
  | [b] => crcStep r b 1
  | b :: c :: bs => crcBytes (crcStep r b 8) (c :: bs)

/-- `CalcCrc(p)`, for a packet of at least one byte (R80). -/
def calcCrc (p : List Byte) : Half := crcBytes Config.crcInit p

/-- A register value and the number of shift iterations made so far (R85). -/
abbrev Counted := Half × Nat

/-- `n` iterations that count themselves: each shift of `crcIterate` adds one (R85). -/
def crcIterateCounted : Nat → Counted → Counted
  | 0, x => x
  | n + 1, (w, c) => crcIterateCounted n (crcShift w, c + 1)

/-- `CrcStep` with its iterations counted (R79, R85). -/
def crcStepCounted (x : Counted) (b : Byte) (n : Nat) : Counted :=
  crcIterateCounted n (x.1 ^^^ (b.setWidth 16 <<< 8), x.2)

/-- The loop of `CalcCrc` with its iterations counted (R80, R85). -/
def crcBytesCounted (x : Counted) : List Byte → Counted
  | [] => x
  | [b] => crcStepCounted x b 1
  | b :: c :: bs => crcBytesCounted (crcStepCounted x b 8) (c :: bs)

/-- `CalcCrc` with its iterations counted from 0 (R80, R85). No state depends on the count (R85, R108). -/
def calcCrcCounted (p : List Byte) : Counted := crcBytesCounted (Config.crcInit, 0) p

/-- `CRC_INIT`: `CRC <- 0xFFFF` (R81). -/
def execCrcInit (s : State) : Out := succeed (s.setCrc Config.crcInit)

/-- `CRC_STEP`: `CRC <- CrcStep(CRC, DATA, N)` (R82). A count above 8 never decodes; a term that holds one fails with
`ILLEGAL` as rule R82's Errors say (log entry 8). -/
def execCrcStep (data : Byte) (n : BitVec 4) (s : State) : Out :=
  if n ≤ maxBitCount then succeed (s.setCrc (crcStep s.crc data n.toNat))
  else fail .illegal s

/-- `CRC_PKT`: an empty packet fails before anything is read; else `CRC <- CalcCrc(BUF[0 .. BUF_LEN))`, the old `CRC` not
read (R83). -/
def execCrcPkt (s : State) : Out :=
  if s.bufLen.val = 0 then fail .invalidInput s
  else succeed ((s.setCrc (calcCrc s.byteSeq)).draw)

end Sys2Proof.Machine
end

