-- ==== Sys2Proof/Machine/Mapper.lean ====
section
/-! DEFINITION. The channel/frequency mapper (40_mapper.md): 32-bit two's complement, wrapping, no range check (R70). -/

namespace Sys2Proof.Machine

/-- `F2C`: `RES <- (OPA - 2400) mod 2^32` (R71). -/
def execF2C (s : State) : Out := succeed (s.setRes (s.opa - Config.chanOffset))

/-- `C2F`: `RES <- (OPA + 2400) mod 2^32` (R72). -/
def execC2F (s : State) : Out := succeed (s.setRes (s.opa + Config.chanOffset))

end Sys2Proof.Machine
end

