-- ==== Sys2Proof/Machine/Dispatch.lean ====
section
/-! DEFINITION. One arm per command of rule R58, each a call of its meaning. -/

namespace Sys2Proof.Machine

def exec (i : Instr) (s : State) : Host.Outcome State Fault Refusal :=
  match i with
  | .nop => Sys2Proof.Machine.execNop s
  | .f2c => Sys2Proof.Machine.execF2C s
  | .c2f => Sys2Proof.Machine.execC2F s
  | .b2s sel => Sys2Proof.Machine.execB2S sel s
  | .s2b sel => Sys2Proof.Machine.execS2B sel s
  | .xor sel => Sys2Proof.Machine.execXor sel s
  | .crcInit => Sys2Proof.Machine.execCrcInit s
  | .crcStep data n => Sys2Proof.Machine.execCrcStep data n s
  | .crcPkt => Sys2Proof.Machine.execCrcPkt s

end Sys2Proof.Machine
end

