-- ==== Sys2Proof/Machine/Bus.lean ====
section
/-! DEFINITION. The host interface (20_memory.md): the register map, `MemRead`, `MemWrite`, `Execute`, the bus error, the
reset input, and which waiting agent is served next. -/

namespace Sys2Proof.Machine

/-- What an aligned offset reaches (R30). -/
inductive Target where
  | cmd
  | status
  | crc
  | opa
  | res
  | bufLen
  | len (sel : Sel)
  | bufWindow (k : Fin 16)
  | bitWindow (sel : Sel) (k : Fin 16)
  | reserved
  deriving DecidableEq, Repr

/-- The register map: the word at an aligned offset (R30, R48). -/
def target (off : Offset) : Target :=
  let o := off.toNat
  if o = 0x000 then .cmd
  else if o = 0x004 then .status
  else if o = 0x008 then .crc
  else if o = 0x00C then .opa
  else if o = 0x010 then .res
  else if o = 0x014 then .bufLen
  else if o = 0x018 then .len .a
  else if o = 0x01C then .len .b
  else if h : 0x100 ≤ o ∧ o < 0x140 then .bufWindow ⟨(o - 0x100) / 4, by omega⟩
  else if h : 0x140 ≤ o ∧ o < 0x180 then .bitWindow .a ⟨(o - 0x140) / 4, by omega⟩
  else if h : 0x180 ≤ o ∧ o < 0x1C0 then .bitWindow .b ⟨(o - 0x180) / 4, by omega⟩
  else .reserved

/-- The BUF window word `k`, `BUF[4k]` in bits 31..24 (R36). -/
def bufWord (s : State) (k : Nat) : Word :=
  s.byteAt (4 * k) ++ s.byteAt (4 * k + 1) ++ s.byteAt (4 * k + 2) ++ s.byteAt (4 * k + 3)

/-- The A or B window word `k`: position `32k + j` in bit `31 - j` (R37). -/
def bitWord (s : State) (sel : Sel) (k : Nat) : Word := packMsb 32 (fun j => s.bitAt sel (32 * k + j))

/-- The value at a target of the register map (R48). -/
def readTarget (s : State) : Target → Word
  | .cmd => 0#32
  | .status => s.err.code.setWidth 32
  | .crc => s.crc.setWidth 32
  | .opa => s.opa
  | .res => s.res
  | .bufLen => BitVec.ofNat 32 s.bufLen.val
  | .len sel => BitVec.ofNat 32 (s.len sel).val
  | .bufWindow k => bufWord s k.val
  | .bitWindow sel k => bitWord s sel k.val
  | .reserved => 0#32

/-- `MemRead(off, 4)` at an aligned offset (R48). It has no side effect (R35). -/
def memRead (off : Offset) (s : State) : Word := readTarget s (target off)

/-- A write of `BUF_LEN`: the whole 32-bit value is compared, unsigned (R31). -/
def writeBufLen (v : Word) (s : State) : State :=
  if h : v.toNat ≤ 64 then s.setBufLen ⟨v.toNat, by omega⟩ else s.setErr .range

/-- A write of `LEN_A` or `LEN_B` (R31). -/
def writeLen (sel : Sel) (v : Word) (s : State) : State :=
  if h : v.toNat ≤ 512 then s.setLen sel ⟨v.toNat, by omega⟩ else s.setErr .range

/-- A write of the BUF window word `k` (R36). -/
def writeBufWord (k : Nat) (v : Word) (s : State) : State :=
  s.setBuf (Memory.fill s.buf (4 * k) (lane v) 4)

/-- A write of the A or B window word `k` (R37). -/
def writeBitWord (sel : Sel) (k : Nat) (v : Word) (s : State) : State :=
  s.setBits sel (Memory.fill (s.bits sel) (32 * k) (wordBit v) 32)

/-- `Execute(v)`: the command the word encodes, or `fail(ILLEGAL)` (R65). -/
def execute (v : Word) (s : State) : Out :=
  match decode v with
  | .instr i => exec i s
  | .illegal _ => fail .illegal s

/-- The effect of writing `v` at a target of the register map (R49). -/
def writeTarget (v : Word) (s : State) : Target → Out
  | .cmd => execute v s
  | .status => .next s
  | .crc => .next (s.setCrc (v.setWidth 16))
  | .opa => .next (s.setOpa v)
  | .res => .next s
  | .bufLen => .next (writeBufLen v s)
  | .len sel => .next (writeLen sel v s)
  | .bufWindow k => .next (writeBufWord k.val v s)
  | .bitWindow sel k => .next (writeBitWord sel k.val v s)
  | .reserved => .next s

/-- `MemWrite(off, 4, v)` at an aligned offset (R49). -/
def memWrite (off : Offset) (v : Word) (s : State) : Out := writeTarget v s (target off)

/-- The accesses the block accepts: 32 bits wide, at a multiple of 4 (R43). -/
def accepts (width : AccessWidth) (off : Offset) : Bool :=
  decide (width = .w32) && decide (off.toNat % 4 = 0)

/-- A completed write is answered; an access that stopped is not. -/
def answerWrite (master : Nat) : Out → Out
  | .next t => .next (t.reply master .done)
  | .fault r => .fault r
  | .refused r => .refused r

/-- Serves one event of agent `master`. Under asserted reset no access is accepted (R99, log entry 6); the bus error is
checked before the offset is decoded (R91) and stops the run (R92); a write to `CMD` performs its whole command here
(R44, R50, R51). -/
def serve (master : Nat) (e : BusEvent) (s : State) : Out :=
  match e with
  | .assertReset => .next s.assertReset
  | .releaseReset => .next s.releaseReset
  | .read width off =>
    if s.inReset then .next (s.reply master .notAccepted)
    else if accepts width off then .next (s.reply master (.data (memRead off s)))
    else .fault (.busError off)
  | .write width off v =>
    if s.inReset then .next (s.reply master .notAccepted)
    else if accepts width off then answerWrite master (memWrite off v s)
    else .fault (.busError off)

/-- The numbers, from `j` on, of the agents that have an event waiting. -/
def waiting : Nat → List (List BusEvent) → List Nat
  | _, [] => []
  | j, [] :: rest => waiting (j + 1) rest
  | j, (_ :: _) :: rest => j :: waiting (j + 1) rest

/-- Which waiting agent goes next: the only one, or a draw among several (R52, U10). -/
def arbitrate (draw : Nat) : List Nat → Option Nat
  | [] => none
  | [j] => some j
  | j :: k :: rest => (j :: k :: rest)[Config.arbiter draw % (rest.length + 2)]?

/-- Takes the oldest event of agent `j`. -/
def takeFrom : Nat → List (List BusEvent) → Option (BusEvent × List (List BusEvent))
  | _, [] => none
  | 0, [] :: _ => none
  | 0, (e :: es) :: rest => some (e, es :: rest)
  | j + 1, es :: rest => (takeFrom j rest).map (fun p => (p.1, es :: p.2))

/-- The next event the block receives: its agent, the event, and the state with the event taken off and the draw used up
(R50, R52); none when nobody presents anything. -/
def nextEvent (s : State) : Option (Nat × BusEvent × State) :=
  (arbitrate s.draws (waiting 0 s.streams)).bind (fun j =>
    (takeFrom j s.streams).map (fun p => (j, p.1, { s with streams := p.2, draws := s.draws + 1 })))

/-- One step of the block: it serves the next event; with none it does nothing, since it "executes nothing until a host
writes `CMD`" (R100). -/
def serveNext (s : State) : Out :=
  match nextEvent s with
  | none => .next s
  | some (master, e, s') => serve master e s'

/-- The host's program, or any list of events, becomes all that is waiting (R110). -/
def State.present (s : State) (p : List BusEvent) : State := { s with streams := [p] }

/-- A `CMD` write of the word `v`, as a host issues it (R29, R69). -/
def cmdWrite (v : Word) : BusEvent := .write .w32 0#12 v

/-- Commands one after another, each from the state the one before left (R50). -/
def execAll : List Instr → State → Out
  | [], s => .next s
  | i :: is, s =>
    match exec i s with
    | .next t => execAll is t
    | .fault r => .fault r
    | .refused r => .refused r

/-- The host address of an offset (R41). -/
def hostAddress (off : Offset) : Nat := Config.base + off.toNat

/-- `offset = addr - BASE` for an address in the aperture; another address does not reach the block (R41). -/
def apertureOffset (addr : Nat) : Option Offset :=
  if Config.base ≤ addr ∧ addr < Config.base + Config.aperture then some (BitVec.ofNat 12 (addr - Config.base))
  else none

end Sys2Proof.Machine
end

