-- ==== Sys2Proof/Machine/Step.lean ====
section
/-! DEFINITION. The step of the machine, and the placing of one command so that the very next step runs it. -/

namespace Sys2Proof.Machine

/-- One step: the block serves the next event at its port. -/
def step (s : State) : Host.Outcome State Fault Refusal := serveNext s

/-- `s` with a host's write of the command word to `CMD` as the one waiting event, and the reset input released, so that
the very next step runs the command. The block fetches nothing (R19, R55): this is how a command comes to run (log
entry 9). -/
def State.withFetchWord (s : State) (nbits w : Nat) : State :=
  { s with streams := [[cmdWrite (tableWord nbits w)]], inReset := false }

end Sys2Proof.Machine
end

