-- ==== Sys2Proof/Machine/Assembler.lean ====
section
/-! DEFINITION. The spec's assembler syntax (R67), its pseudo-instructions (R68) and the lines of a host program (R69, R110).
Operands are kept as written, so that the assembler can reject them. -/

namespace Sys2Proof.Machine

/-- One command line, with its operands as written (R67, R68). -/
inductive AsmLine where
  | nop
  | f2c
  | c2f
  | b2s (operand : String)
  | s2b (operand : String)
  | xor (operand : String)
  | crcInit
  | crcStep (d n : Nat)
  | crcPkt
  /-- `crc.byte d`, one non-final packet byte. -/
  | crcByte (d : Nat)
  /-- `crc.last d`, the final packet byte. -/
  | crcLast (d : Nat)
  /-- `clrerr`. -/
  | clrerr
  deriving DecidableEq, Repr

/-- The buffer operand: `a` or `b`, nothing else (R67). -/
def asmSel (operand : String) : Option Sel :=
  if operand = "a" then some .a else if operand = "b" then some .b else none

/-- `crc.step d, n` with `d` in 0..255 and `n` in 0..8, nothing else (R67). -/
def asmCrcStep (d n : Nat) : Option Instr :=
  if d ≤ 255 ∧ n ≤ 8 then some (.crcStep (BitVec.ofNat 8 d) (BitVec.ofNat 4 n)) else none

/-- The command a line stands for; none where the assembler rejects it (R67, R68). -/
def assemble : AsmLine → Option Instr
  | .nop => some .nop
  | .f2c => some .f2c
  | .c2f => some .c2f
  | .b2s operand => (asmSel operand).map Instr.b2s
  | .s2b operand => (asmSel operand).map Instr.s2b
  | .xor operand => (asmSel operand).map Instr.xor
  | .crcInit => some .crcInit
  | .crcStep d n => asmCrcStep d n
  | .crcPkt => some .crcPkt
  | .crcByte d => asmCrcStep d 8
  | .crcLast d => asmCrcStep d 1
  | .clrerr => some .nop

/-- The registers whose names may stand for their offsets (R30, R69). -/
inductive RegName where
  | cmd | status | crc | opa | res | bufLen | lenA | lenB
  deriving DecidableEq, Repr

/-- The offset of a register (R30). -/
def RegName.offset : RegName → Offset
  | .cmd => 0x000#12
  | .status => 0x004#12
  | .crc => 0x008#12
  | .opa => 0x00C#12
  | .res => 0x010#12
  | .bufLen => 0x014#12
  | .lenA => 0x018#12
  | .lenB => 0x01C#12

/-- One line of a host program (R69). -/
inductive HostLine where
  | wr (off : Offset) (v : Word)
  | rd (off : Offset)
  | command (line : AsmLine)
  deriving DecidableEq, Repr

/-- The bus access a line stands for: `wr`, `rd` are 32-bit accesses, and a command line is `wr CMD, <its encoding>`
(R69). -/
def HostLine.event : HostLine → Option BusEvent
  | .wr off v => some (.write .w32 off v)
  | .rd off => some (.read .w32 off)
  | .command line => (assemble line).map (fun i => cmdWrite (encode i))

/-- The accesses of a host program; none where a line of it does not assemble (R110). -/
def hostProgram : List HostLine → Option (List BusEvent)
  | [] => some []
  | line :: rest =>
    match line.event, hostProgram rest with
    | some e, some es => some (e :: es)
    | _, _ => none

end Sys2Proof.Machine
end

