-- ==== Sys2Proof/Machine/Source.lean ====
section
/-! DEFINITION. The source's six functions (R3), on the source's own values: unbounded integers, byte sequences, bit strings
of any length. They are no part of the machine: the statements say that each command computes the same result as the
source's function on the values it reads (C5, D1). -/

namespace Sys2Proof.Machine

/-- `frequencyToChannel(frequency) = frequency - 2400` (R71). -/
def Source.frequencyToChannel (frequency : Int) : Int := frequency - 2400

/-- `channelToFrequency(channel) = channel + 2400` (R72). -/
def Source.channelToFrequency (channel : Int) : Int := channel + 2400

/-- One byte's 8-bit representation, most significant bit first (R74). -/
def Source.byteBits (b : Byte) : List Bool := (List.range 8).map (fun j => b.getLsbD (7 - j))

/-- `bytesToBits`: the representations of the bytes, concatenated in input order (R74). -/
def Source.bytesToBits (data : List Byte) : List Bool := data.flatMap Source.byteBits

/-- A group of characters read as an unsigned base-2 integer, the first one most significant (R75). -/
def Source.groupValue (group : List Bool) : Nat := group.foldl (fun n b => 2 * n + b.toNat) 0

/-- A final group right-padded with zeros until it reaches 8 (R75). -/
def Source.padGroup (group : List Bool) : List Bool := group ++ List.replicate (8 - group.length) false

/-- `bitsToBytes`: groups of 8 from the left, the final one padded, one byte a group (R75). -/
def Source.bitsToBytes : List Bool → List Byte
  | [] => []
  | b0 :: b1 :: b2 :: b3 :: b4 :: b5 :: b6 :: b7 :: rest =>
    BitVec.ofNat 8 (Source.groupValue [b0, b1, b2, b3, b4, b5, b6, b7]) :: Source.bitsToBytes rest
  | group => [BitVec.ofNat 8 (Source.groupValue (Source.padGroup group))]

/-- `bitwiseXor`: a failure on different lengths, else the characters combined one by one (R77). -/
def Source.bitwiseXor (a b : List Bool) : Option (List Bool) :=
  if a.length = b.length then some (List.zipWith Bool.xor a b) else none

/-- The polynomial bytes `0x10 0x21` (R17, R79). -/
def Source.polyBytes : List Byte := [0x10#8, 0x21#8]

/-- One iteration on the working string: look at the leftmost bit, drop it and append `'0'`, and XOR with the
polynomial's 16-bit representation when it was `'1'` (R79, step 2). -/
def Source.crcShift : List Bool → List Bool
  | [] => []
  | first :: rest =>
    if first then List.zipWith Bool.xor (rest ++ [false]) (Source.bytesToBits Source.polyBytes)
    else rest ++ [false]

/-- `bitCount` iterations. -/
def Source.crcIterate : Nat → List Bool → List Bool
  | 0, working => working
  | n + 1, working => Source.crcIterate n (Source.crcShift working)

/-- `crcStep(register, inputByte, bitCount)` on the 2-byte register (R79, steps 1 to 3). -/
def Source.crcStep (register : List Byte) (inputByte : Byte) (bitCount : Nat) : List Byte :=
  Source.bitsToBytes (Source.crcIterate bitCount
    (List.zipWith Bool.xor (Source.bytesToBits register)
      (Source.bytesToBits [inputByte] ++ List.replicate 8 false)))

/-- The loop of `calcCrc`: 8 iterations a byte, one for the last (R80). -/
def Source.crcLoop (register : List Byte) : List Byte → List Byte
  | [] => register
  | [last] => Source.crcStep register last 1
  | byte :: next :: rest => Source.crcLoop (Source.crcStep register byte 8) (next :: rest)

/-- `calcCrc`: out of contract on an empty packet (R83), else the loop from `0xFFFF` (R80). -/
def Source.calcCrc (packet : List Byte) : Option (List Byte) :=
  match packet with
  | [] => none
  | byte :: rest => some (Source.crcLoop [0xFF#8, 0xFF#8] (byte :: rest))

/-- The two bytes of a CRC register, `CRC[15:8]` first (R23, R47). -/
def Source.registerBytes (r : Half) : List Byte := [r.extractLsb' 8 8, r.extractLsb' 0 8]

end Sys2Proof.Machine
end

