-- ==== Sys2Proof/Safety.lean ====
section
/-! DEFINITION. What counts as a safe run: the invariant of the state, the host's duty that can be checked on an access
(R105), and the frames the statements name. -/

namespace Sys2Proof.Machine

/-- The state invariant: the three memories are in canonical form and hold no element past the buffer's capacity
(R24, R25). -/
abbrev State.Inv (s : State) : Prop :=
  Memory.wf s.buf ∧ Memory.below Config.nBytes s.buf ∧
  Memory.wf s.a ∧ Memory.below Config.nBits s.a ∧
  Memory.wf s.b ∧ Memory.below Config.nBits s.b

/-- The host uses "only 32-bit aligned accesses" (R105); the edges of the reset input are no accesses. -/
def keepsDuty : BusEvent → Bool
  | .read width off => accepts width off
  | .write width off _ => accepts width off
  | .assertReset => true
  | .releaseReset => true

/-- Every access still to come keeps the duty. -/
abbrev State.DutyKept (s : State) : Prop := ∀ q ∈ s.streams, ∀ e ∈ q, keepsDuty e = true

/-- Outside the block: the reset input, the accesses to come and the answers given are as they were. No command touches
them. -/
abbrev SameOutside (s t : State) : Prop :=
  t.inReset = s.inReset ∧ t.streams = s.streams ∧ t.replies = s.replies

/-- `OPA` and `RES` are as they were. -/
abbrev SameMapper (s t : State) : Prop := t.opa = s.opa ∧ t.res = s.res

/-- The byte buffer and its length are as they were, byte by byte. -/
abbrev SameBuf (s t : State) : Prop :=
  t.bufLen = s.bufLen ∧ ∀ k, Memory.read t.buf k = Memory.read s.buf k

/-- A bit-string buffer and its length are as they were, position by position. -/
abbrev SameBits (sel : Sel) (s t : State) : Prop :=
  t.len sel = s.len sel ∧ ∀ p, Memory.read (t.bits sel) p = Memory.read (s.bits sel) p

/-- Every byte of `BUF[0 .. BUF_LEN)` is written. -/
abbrev State.BytesWritten (s : State) : Prop :=
  ∀ k, k < s.bufLen.val → (Memory.read s.buf k).isSome = true

/-- Every position of the string in `sel` is written. -/
abbrev State.StringWritten (s : State) (sel : Sel) : Prop :=
  ∀ p, p < (s.len sel).val → (Memory.read (s.bits sel) p).isSome = true

/-- Every storage element the command reads is written (R27, R107): `B2S` and `CRC_PKT` read the byte sequence, `S2B` one
string, `XOR` both strings, and none of them where the lengths differ (R77); the others read no storage. -/
def ReadsOnlyWritten (i : Instr) (s : State) : Prop :=
  match i with
  | .b2s _ => s.BytesWritten
  | .crcPkt => s.BytesWritten
  | .s2b sel => s.StringWritten sel
  | .xor _ => s.lenA = s.lenB → s.StringWritten .a ∧ s.StringWritten .b
  | .nop => True
  | .f2c => True
  | .c2f => True
  | .crcInit => True
  | .crcStep _ _ => True

end Sys2Proof.Machine
end

