-- ==== Sys2Proof/Certificates/Slice0/Obligations.lean ====
section
/-! DEFINITION. The statements for the provers, each from the spec's numbered rules. -/

open Sys2Proof Sys2Proof.Machine

/-! Encoding (30_encoding.md) -/

/-- R57, R58, R63: decoding the word of a well-formed instruction gives it back, with every operand. -/
def Obligations.DecodeOfEncodeGivesTheInstruction : Prop :=
  ∀ i : Instr, WellFormed i = true → decode (encode i) = .instr i

/-- R57, R63, R64: a word that decodes is the one encoding of a well-formed instruction; no bit is dropped. -/
def Obligations.DecodedWordIsTheEncoding : Prop :=
  ∀ (v : Word) (i : Instr), decode v = .instr i → WellFormed i = true ∧ encode i = v

/-- R63, R64: the match and mask table written out, with the fields of the operands; every other word, those with a
reserved opcode among them, is illegal. -/
def Obligations.DecodeFollowsTheMatchMaskTable : Prop :=
  ∀ v : Word,
    (decode v = .instr .nop ↔ v &&& 0xFFFFFFFF#32 = 0x00000000#32) ∧
    (decode v = .instr .f2c ↔ v &&& 0xFFFFFFFF#32 = 0x00000001#32) ∧
    (decode v = .instr .c2f ↔ v &&& 0xFFFFFFFF#32 = 0x00000002#32) ∧
    (∀ sel, decode v = .instr (.b2s sel) ↔
      v &&& 0xFFFFFFEF#32 = 0x00000003#32 ∧ (v.getLsbD 4 = true ↔ sel = .b)) ∧
    (∀ sel, decode v = .instr (.s2b sel) ↔
      v &&& 0xFFFFFFEF#32 = 0x00000004#32 ∧ (v.getLsbD 4 = true ↔ sel = .b)) ∧
    (∀ sel, decode v = .instr (.xor sel) ↔
      v &&& 0xFFFFFFEF#32 = 0x00000005#32 ∧ (v.getLsbD 4 = true ↔ sel = .b)) ∧
    (decode v = .instr .crcInit ↔ v &&& 0xFFFFFFFF#32 = 0x00000006#32) ∧
    (∀ d n, decode v = .instr (.crcStep d n) ↔
      v &&& 0xFF00F0FF#32 = 0x00000007#32 ∧ n ≤ 8#4 ∧ v.extractLsb' 8 4 = n ∧ v.extractLsb' 16 8 = d) ∧
    (decode v = .instr .crcPkt ↔ v &&& 0xFFFFFFFF#32 = 0x00000008#32) ∧
    ((∃ why, decode v = .illegal why) ↔
      ¬ (v = 0#32 ∨ v = 1#32 ∨ v = 2#32 ∨
        v &&& 0xFFFFFFEF#32 = 3#32 ∨ v &&& 0xFFFFFFEF#32 = 4#32 ∨ v &&& 0xFFFFFFEF#32 = 5#32 ∨ v = 6#32 ∨
        (v &&& 0xFF00F0FF#32 = 7#32 ∧ v.extractLsb' 8 4 ≤ 8#4) ∨ v = 8#32)) ∧
    (9#4 ≤ v.extractLsb' 0 4 → ∃ why, decode v = .illegal why)

/-- R62: a word with a reserved bit set is illegal, and executing it sets `ERR` to `ILLEGAL` and nothing else. -/
def Obligations.ReservedBitMakesTheWordIllegal : Prop :=
  ∀ (v : Word) (s : State), v &&& 0xFF00F0E0#32 ≠ 0#32 →
    (∃ why, decode v = .illegal why) ∧ execute v s = .next { s with err := .illegal }

/-- R65: a row that matches is performed, at most one matches, a word no row matches fails with `ILLEGAL`, and the bus
write that carries it completes normally. -/
def Obligations.ExecuteFollowsTheTable : Prop :=
  ∀ (v : Word) (s : State),
    (∀ r ∈ rows, r.hits v = true → execute v s = exec (r.op.build v) s) ∧
    (∀ r ∈ rows, ∀ r' ∈ rows, r.hits v = true → r'.hits v = true → r = r') ∧
    ((∀ r ∈ rows, r.hits v = false) →
      execute v s = .next { s with err := .illegal } ∧
      ∀ master, s.inReset = false →
        serve master (cmdWrite v) s = .next (State.reply { s with err := .illegal } master .done))

/-- Words of every command family written out from R57, and words each cause of R89 makes illegal, decode as they must
(the vectors V-ENC of 95_test_vectors.md). The name of an illegal word's cause is the model's choice (log entry 11).
-/
def Obligations.SampleWordsDecode : Prop :=
  decode 0x00000000#32 = .instr .nop ∧ decode 0x00000001#32 = .instr .f2c ∧
  decode 0x00000013#32 = .instr (.b2s .b) ∧ decode 0x00000005#32 = .instr (.xor .a) ∧
  decode 0x00E80807#32 = .instr (.crcStep 0xE8#8 8#4) ∧ decode 0x00FF0007#32 = .instr (.crcStep 0xFF#8 0#4) ∧
  decode 0x00000907#32 = .illegal .countOver8 ∧ decode 0x0000000F#32 = .illegal .reservedOpcode ∧
  decode 0x00000010#32 = .illegal .unusedField ∧ decode 0x00001007#32 = .illegal .reservedBit

/-- R67, R68: the assembler's lines, the words they encode, the operands it rejects, and the pseudo-instructions. -/
def Obligations.AssemblerEncodesItsSyntax : Prop :=
  (assemble .nop).map encode = some 0x00000000#32 ∧
  (assemble .f2c).map encode = some 0x00000001#32 ∧
  (assemble .c2f).map encode = some 0x00000002#32 ∧
  ((assemble (.b2s "a")).map encode = some 0x00000003#32 ∧ (assemble (.b2s "b")).map encode = some 0x00000013#32) ∧
  ((assemble (.s2b "a")).map encode = some 0x00000004#32 ∧ (assemble (.s2b "b")).map encode = some 0x00000014#32) ∧
  ((assemble (.xor "a")).map encode = some 0x00000005#32 ∧ (assemble (.xor "b")).map encode = some 0x00000015#32) ∧
  (assemble .crcInit).map encode = some 0x00000006#32 ∧
  (assemble .crcPkt).map encode = some 0x00000008#32 ∧
  (∀ x : String, x ≠ "a" → x ≠ "b" →
    assemble (.b2s x) = none ∧ assemble (.s2b x) = none ∧ assemble (.xor x) = none) ∧
  (∀ d n : Nat, d ≤ 255 → n ≤ 8 →
    (assemble (.crcStep d n)).map encode = some (BitVec.ofNat 32 (7 + 65536 * d + 256 * n))) ∧
  (∀ d n : Nat, 255 < d ∨ 8 < n → assemble (.crcStep d n) = none) ∧
  (∀ d : Nat, assemble (.crcByte d) = assemble (.crcStep d 8) ∧ assemble (.crcLast d) = assemble (.crcStep d 1)) ∧
  assemble .clrerr = assemble .nop

/-! The commands, one by one -/

/-- R86: `NOP` reports success and changes nothing else; a word with `OP = 0` and another bit set is illegal. -/
def Obligations.NopOnlyClearsErr : Prop :=
  encode .nop = 0x00000000#32 ∧
  (∀ s : State, exec .nop s = .next { s with err := .none }) ∧
  (∀ (v : Word) (s : State), v.extractLsb' 0 4 = 0#4 → v ≠ 0#32 →
    (∃ why, decode v = .illegal why) ∧ execute v s = .next { s with err := .illegal })

/-- R71: `F2C`. -/
def Obligations.F2CSubtracts2400 : Prop :=
  encode .f2c = 0x00000001#32 ∧
  ∀ s : State, exec .f2c s = .next { s with res := s.opa - 2400#32, err := .none }

/-- R72: `C2F`. -/
def Obligations.C2FAdds2400 : Prop :=
  encode .c2f = 0x00000002#32 ∧
  ∀ s : State, exec .c2f s = .next { s with res := s.opa + 2400#32, err := .none }

/-- R73: each mapper command undoes the other when the result is moved to `OPA`. -/
def Obligations.MapperCommandsAreInverse : Prop :=
  ∀ s : State,
    (∃ t u, exec .f2c s = .next t ∧ exec .c2f (t.setOpa t.res) = .next u ∧ u.res = s.opa) ∧
    (∃ t u, exec .c2f s = .next t ∧ exec .f2c (t.setOpa t.res) = .next u ∧ u.res = s.opa)

/-- R70: no operand is rejected, the arithmetic wraps modulo 2^32 in two's complement, and it agrees with the source's
unbounded integers exactly when the true result fits. -/
def Obligations.MapperAgreesWithTheSourceWhenItFits : Prop :=
  ∀ s : State,
    (∃ t, exec .f2c s = .next t ∧
      t.res.toInt = (Source.frequencyToChannel s.opa.toInt).bmod (2 ^ 32) ∧
      (t.res.toInt = Source.frequencyToChannel s.opa.toInt ↔
        -2 ^ 31 ≤ Source.frequencyToChannel s.opa.toInt ∧ Source.frequencyToChannel s.opa.toInt ≤ 2 ^ 31 - 1)) ∧
    (∃ t, exec .c2f s = .next t ∧
      t.res.toInt = (Source.channelToFrequency s.opa.toInt).bmod (2 ^ 32) ∧
      (t.res.toInt = Source.channelToFrequency s.opa.toInt ↔
        -2 ^ 31 ≤ Source.channelToFrequency s.opa.toInt ∧ Source.channelToFrequency s.opa.toInt ≤ 2 ^ 31 - 1))

/-- R74: `B2S`, its result and its frame. That the command completes on unwritten bytes, with the free values they are
read as, is the model's choice (log entry 1). -/
def Obligations.B2SWritesTheBytesBits : Prop :=
  encode (.b2s .a) = 0x00000003#32 ∧ encode (.b2s .b) = 0x00000013#32 ∧
  ∀ (sel : Sel) (s : State), ∃ t, exec (.b2s sel) s = .next t ∧
    (∀ k j, k < s.bufLen.val → j < 8 →
      Memory.read (t.bits sel) (8 * k + j) = some ((s.byteAt k).getLsbD (7 - j))) ∧
    (t.len sel).val = 8 * s.bufLen.val ∧ t.err = .none ∧
    (∀ p, 8 * s.bufLen.val ≤ p → Memory.read (t.bits sel) p = Memory.read (s.bits sel) p) ∧
    SameBits sel.other s t ∧ SameBuf s t ∧ SameMapper s t ∧ t.crc = s.crc ∧ SameOutside s t

/-- R75: `S2B`, its result and its frame. Positions past the string's end count as 0 whatever the storage holds. That
the command completes on unwritten positions, with the free values they are read as, is the model's choice (log entry
1). -/
def Obligations.S2BWritesThePackedBytes : Prop :=
  encode (.s2b .a) = 0x00000004#32 ∧ encode (.s2b .b) = 0x00000014#32 ∧
  ∀ (sel : Sel) (s : State), ∃ t, exec (.s2b sel) s = .next t ∧
    (∀ k, k < ((s.len sel).val + 7) / 8 → ∃ v : Byte, Memory.read t.buf k = some v ∧
      ∀ j, j < 8 → v.getLsbD (7 - j) =
        if 8 * k + j < (s.len sel).val then s.bitAt sel (8 * k + j) else false) ∧
    t.bufLen.val = ((s.len sel).val + 7) / 8 ∧ t.err = .none ∧
    (∀ k, ((s.len sel).val + 7) / 8 ≤ k → Memory.read t.buf k = Memory.read s.buf k) ∧
    SameBits .a s t ∧ SameBits .b s t ∧ SameMapper s t ∧ t.crc = s.crc ∧ SameOutside s t

/-- R77: `XOR` fails on different lengths, changing `ERR` alone; on equal lengths its result and its frame. That the
command completes on unwritten positions, with the free values they are read as, is the model's choice (log entry 1).
-/
def Obligations.XorCombinesEqualLengths : Prop :=
  encode (.xor .a) = 0x00000005#32 ∧ encode (.xor .b) = 0x00000015#32 ∧
  ∀ (sel : Sel) (s : State),
    (s.lenA ≠ s.lenB → exec (.xor sel) s = .next { s with err := .lengthMismatch }) ∧
    (s.lenA = s.lenB → ∃ t, exec (.xor sel) s = .next t ∧
      (∀ p, p < s.lenA.val →
        Memory.read (t.bits sel) p = some (Bool.xor (s.bitAt .a p) (s.bitAt .b p))) ∧
      t.len sel = s.len sel ∧ t.err = .none ∧
      (∀ p, s.lenA.val ≤ p → Memory.read (t.bits sel) p = Memory.read (s.bits sel) p) ∧
      SameBits sel.other s t ∧ SameBuf s t ∧ SameMapper s t ∧ t.crc = s.crc ∧ SameOutside s t)

/-- R81: `CRC_INIT`; it is idempotent and writes no buffer. -/
def Obligations.CrcInitLoadsFFFF : Prop :=
  encode .crcInit = 0x00000006#32 ∧
  (∀ s : State, exec .crcInit s = .next { s with crc := 0xFFFF#16, err := .none }) ∧
  (∀ s t : State, exec .crcInit s = .next t → exec .crcInit t = .next t)

/-- R82: `CRC_STEP` with a count up to 8; a word with a count above 8 is illegal and leaves `CRC`. -/
def Obligations.CrcStepAppliesOneByte : Prop :=
  (∀ (d : Byte) (n : BitVec 4), n ≤ 8#4 →
    encode (.crcStep d n) = 7#32 ||| (d.setWidth 32 <<< 16) ||| (n.setWidth 32 <<< 8) ∧
    ∀ s : State, exec (.crcStep d n) s = .next { s with crc := crcStep s.crc d n.toNat, err := .none }) ∧
  (∀ (d : Byte) (n : BitVec 4), 8#4 < n → ∀ s : State,
    execute (7#32 ||| (d.setWidth 32 <<< 16) ||| (n.setWidth 32 <<< 8)) s = .next { s with err := .illegal })

/-- R83: `CRC_PKT` fails on an empty packet, changing `ERR` alone; else `CRC` is the CRC of the packet, and nothing
but `CRC` and `ERR` changes. That the command completes on unwritten bytes, with the free values they are read as, is
the model's choice (log entry 1). -/
def Obligations.CrcPktComputesThePacketCrc : Prop :=
  encode .crcPkt = 0x00000008#32 ∧
  ∀ s : State,
    (s.bufLen.val = 0 → exec .crcPkt s = .next { s with err := .invalidInput }) ∧
    (s.bufLen.val ≠ 0 → ∃ t, exec .crcPkt s = .next t ∧
      t.crc = calcCrc ((List.range s.bufLen.val).map s.byteAt) ∧ t.err = .none ∧
      SameBuf s t ∧ SameBits .a s t ∧ SameBits .b s t ∧ SameMapper s t ∧ SameOutside s t)

/-! The CRC engine -/

/-- R79: one more iteration is one more conditional shift, and the integer form is the source's string form on the
register's two bytes. -/
def Obligations.CrcStepIsTheSourcesStringStep : Prop :=
  ∀ (r : Half) (b : Byte),
    crcStep r b 0 = r ^^^ (b.setWidth 16 <<< 8) ∧
    (∀ n, crcStep r b (n + 1) =
      if (crcStep r b n).getLsbD 15 = true then (crcStep r b n <<< 1) ^^^ 0x1021#16 else crcStep r b n <<< 1) ∧
    ∀ n, Source.registerBytes (crcStep r b n) = Source.crcStep (Source.registerBytes r) b n

/-- R80: from `0xFFFF`, 8 iterations for every byte except the last, and one for the last. -/
def Obligations.CalcCrcGivesTheLastByteOneIteration : Prop :=
  ∀ (first : List Byte) (last : Byte),
    calcCrc (first ++ [last]) = crcStep (first.foldl (fun r b => crcStep r b 8) 0xFFFF#16) last 1

/-- R84: the byte-by-byte sequence leaves the `CRC` that `CRC_PKT` leaves with the same packet in `BUF`, and no error.
That `CRC_PKT` completes on a sequence with unwritten bytes is the model's choice (log entry 1). -/
def Obligations.ByteSequenceEqualsCrcPkt : Prop :=
  ∀ (first : List Byte) (last : Byte) (s : State),
    ∃ t, execAll (.crcInit :: (first.map (fun b => Instr.crcStep b 8#4) ++ [.crcStep last 1#4])) s = .next t ∧
      t.err = .none ∧
      ∀ u : State, u.byteSeq = first ++ [last] → ∃ w, exec .crcPkt u = .next w ∧ w.crc = t.crc

/-- R83, R80, C5: `CRC_PKT` computes the source's `calcCrc` of the packet, and fails exactly where that is out of
contract. That the command completes on unwritten bytes, with the free values they are read as, is the model's choice
(log entry 1). -/
def Obligations.CrcPktComputesTheSourcesCalcCrc : Prop :=
  ∀ s : State, ∃ t, exec .crcPkt s = .next t ∧
    Source.calcCrc s.byteSeq =
      if t.err = .invalidInput then none else some (Source.registerBytes t.crc)

/-- R85, R108: the loops that count their shifts compute what `CRC_STEP` and `CRC_PKT` leave in `CRC`; `CRC_STEP`
makes `N` iterations, `CRC_PKT` makes `8 * (BUF_LEN - 1) + 1`, at most 505. Completing on unwritten bytes, with the
free values they are read as, is the model's choice (log entry 1). -/
def Obligations.CrcPktIterationCount : Prop :=
  (∀ (d : Byte) (n : BitVec 4) (s : State), n ≤ 8#4 → ∃ t, exec (.crcStep d n) s = .next t ∧
    crcStepCounted (s.crc, 0) d n.toNat = (t.crc, n.toNat)) ∧
  (∀ s : State, s.bufLen.val ≠ 0 → ∃ t, exec .crcPkt s = .next t ∧
    calcCrcCounted s.byteSeq = (t.crc, 8 * (s.bufLen.val - 1) + 1) ∧ 8 * (s.bufLen.val - 1) + 1 ≤ 505) ∧
  (∀ p : List Byte, (calcCrcCounted p).1 = calcCrc p)

/-! The codec and the combinator against the source -/

/-- R74, C5: the string `B2S` leaves is the source's `bytesToBits` of the byte sequence. That the command completes on
unwritten bytes, with the free values they are read as, is the model's choice (log entry 1). -/
def Obligations.B2SComputesTheSourcesBytesToBits : Prop :=
  ∀ (sel : Sel) (s : State), ∃ t, exec (.b2s sel) s = .next t ∧
    t.bitString sel = Source.bytesToBits s.byteSeq

/-- R75, C5: the byte sequence `S2B` leaves is the source's `bitsToBytes` of the string. That the command completes on
unwritten positions, with the free values they are read as, is the model's choice (log entry 1). -/
def Obligations.S2BComputesTheSourcesBitsToBytes : Prop :=
  ∀ (sel : Sel) (s : State), ∃ t, exec (.s2b sel) s = .next t ∧
    t.byteSeq = Source.bitsToBytes (s.bitString sel)

/-- R77, C4, C5: `XOR` leaves the source's `bitwiseXor` of the two strings, and reports `LENGTH_MISMATCH` exactly
where that fails. That the command completes on unwritten positions, with the free values they are read as, is the
model's choice (log entry 1). -/
def Obligations.XorComputesTheSourcesBitwiseXor : Prop :=
  ∀ (sel : Sel) (s : State), ∃ t, exec (.xor sel) s = .next t ∧
    Source.bitwiseXor (s.bitString .a) (s.bitString .b) =
      if t.err = .lengthMismatch then none else some (t.bitString sel)

/-- R76: the codec's round trips. `s.byteSeq` and `s.bitString` are the values the first command reads. That the law
speaks of those values is the model's reading (log entry 13); completing on unwritten storage, with free values, is
the model's choice (log entry 1). -/
def Obligations.CodecRoundTrips : Prop :=
  ∀ (sel : Sel) (s : State),
    (∃ t u, exec (.b2s sel) s = .next t ∧ exec (.s2b sel) t = .next u ∧
      u.byteSeq = s.byteSeq ∧ u.bufLen = s.bufLen) ∧
    (∃ t u, exec (.s2b sel) s = .next t ∧ exec (.b2s sel) t = .next u ∧
      (u.len sel).val = 8 * (((s.len sel).val + 7) / 8) ∧
      u.bitString sel = s.bitString sel ++ List.replicate ((u.len sel).val - (s.len sel).val) false ∧
      ((s.len sel).val % 8 = 0 → u.bitString sel = s.bitString sel ∧ u.len sel = s.len sel))

/-- R78: the laws of `XOR`. That "with `B` unchanged" in the third asks for `B`'s string to be written is the model's
reading (log entry 13): an unwritten position reads differently each time (U1). Completing on unwritten positions,
with free values, is the model's choice (log entry 1). -/
def Obligations.XorLaws : Prop :=
  ∀ s : State,
    (s.lenA = s.lenB →
      ∃ t u, exec (.xor .a) s = .next t ∧ exec (.xor .b) s = .next u ∧ t.bitString .a = u.bitString .b) ∧
    (s.lenA = s.lenB → s.bitString .a = s.bitString .b →
      ∃ t u, exec (.xor .a) s = .next t ∧ t.bitString .a = List.replicate s.lenA.val false ∧
        exec (.xor .b) s = .next u ∧ u.bitString .b = List.replicate s.lenA.val false) ∧
    (s.lenA = s.lenB → (∀ p, p < s.lenB.val → (Memory.read s.b p).isSome = true) →
      ∃ t u, exec (.xor .a) s = .next t ∧ exec (.xor .a) t = .next u ∧ u.bitString .a = s.bitString .a) ∧
    (s.lenA ≠ s.lenB → ∀ sel, exec (.xor sel) s = .next { s with err := .lengthMismatch })

/-! Rules over all commands -/

/-- R88, R102: every command completes, from every state; so does every word written to `CMD`. Completing on unwritten
storage is the model's choice (log entry 1), and so is the meaning of a `CRC_STEP` term with a count above 8 (log
entry 8). -/
def Obligations.EveryCommandCompletes : Prop :=
  (∀ (i : Instr) (s : State), ∃ t, exec i s = .next t) ∧
  (∀ (v : Word) (s : State), ∃ t, execute v s = .next t)

/-- R90: a command word that fails writes `ERR` and nothing else, and a command that does not fail ends with `NONE`.
-/
def Obligations.FailureChangesOnlyErr : Prop :=
  ∀ (v : Word) (s t : State), execute v s = .next t →
    t.err = .none ∨ (t.err ≠ .range ∧ t = { s with err := t.err })

/-- R28, R89: which command leaves which code, and when. That a `CRC_STEP` term with a count above 8 leaves `ILLEGAL`
is the model's inference (log entry 8). -/
def Obligations.ErrAfterEachCommand : Prop :=
  ∀ (i : Instr) (s t : State), exec i s = .next t →
    (t.err = .lengthMismatch ↔ (∃ sel, i = .xor sel) ∧ s.lenA ≠ s.lenB) ∧
    (t.err = .invalidInput ↔ i = .crcPkt ∧ s.bufLen.val = 0) ∧
    (t.err = .illegal ↔ ∃ d n, i = .crcStep d n ∧ 8#4 < n) ∧
    t.err ≠ .range

/-- R18, R88, R93: no command touches the reset input or the accesses still to come, or answers an access. -/
def Obligations.NoCommandTouchesTheOutside : Prop :=
  ∀ (i : Instr) (s t : State), exec i s = .next t → SameOutside s t

/-- R20, R33: no command writes `OPA`; the host writes it with any value and reads back the last one written; a read
of `RES` returns `RES`. -/
def Obligations.OpaRegisterAccess : Prop :=
  (∀ (i : Instr) (s t : State), exec i s = .next t → t.opa = s.opa) ∧
  (∀ (v : Word) (s : State), memWrite 0x00C#12 v s = .next { s with opa := v }) ∧
  (∀ (off : Offset) (v : Word) (s t : State), off ≠ 0x00C#12 → memWrite off v s = .next t → t.opa = s.opa) ∧
  (∀ s : State, memRead 0x00C#12 s = s.opa ∧ memRead 0x010#12 s = s.res)

/-- R21: only `F2C` and `C2F` write `RES`; no host write does, a write to `RES` itself being ignored; a read returns
it. -/
def Obligations.OnlyTheMapperWritesRes : Prop :=
  (∀ (i : Instr) (s t : State), exec i s = .next t → t.res ≠ s.res → i = .f2c ∨ i = .c2f) ∧
  (∀ (off : Offset) (v : Word) (s t : State), off ≠ 0x000#12 → memWrite off v s = .next t → t.res = s.res) ∧
  (∀ (v : Word) (s : State), memWrite 0x010#12 v s = .next s ∧ memRead 0x010#12 s = s.res)

/-- R22, R32: what changes `CRC`, what the host reads and writes at 0x008, and that `CRC_PKT` does not read it. -/
def Obligations.CrcRegisterAccess : Prop :=
  (∀ (i : Instr) (s t : State), exec i s = .next t → t.crc ≠ s.crc →
    i = .crcInit ∨ i = .crcPkt ∨ ∃ d n, i = .crcStep d n ∧ n ≤ 8#4) ∧
  (∀ (s : State), memRead 0x008#12 s = s.crc.setWidth 32) ∧
  (∀ (v : Word) (s : State), memWrite 0x008#12 v s = .next { s with crc := v.extractLsb' 0 16 }) ∧
  (∀ (off : Offset) (v : Word) (s t : State), off ≠ 0x000#12 → off ≠ 0x008#12 → memWrite off v s = .next t →
    t.crc = s.crc) ∧
  (∀ (s : State) (c : Half), s.bufLen.val ≠ 0 → exec .crcPkt { s with crc := c } = exec .crcPkt s)

/-- R39: "No command reads `ERR`". -/
def Obligations.NoCommandReadsErr : Prop :=
  ∀ (i : Instr) (s : State) (e : ErrCode), exec i { s with err := e } = exec i s

/-- R25: no command writes a position at or past the length it leaves. -/
def Obligations.NoCommandWritesPastTheLength : Prop :=
  ∀ (i : Instr) (s t : State) (sel : Sel) (p : Nat), exec i s = .next t → (t.len sel).val ≤ p →
    Memory.read (t.bits sel) p = Memory.read (s.bits sel) p

/-- R25, R75: `S2B` does not read storage past the string's end: changing it changes nothing in what `S2B` does. That
`S2B` completes where positions below the length are unwritten is the model's choice (log entry 1). -/
def Obligations.S2BIgnoresStoragePastTheLength : Prop :=
  ∀ (sel : Sel) (s : State) (m : Memory Bool),
    (∀ p, p < (s.len sel).val → Memory.read m p = Memory.read (s.bits sel) p) →
    ∃ t, exec (.s2b sel) s = .next t ∧ exec (.s2b sel) (s.setBits sel m) = .next (t.setBits sel m)

/-- R27, R107: where every element the command reads is written, whatever the other storage holds, the command
completes and its outcome does not depend on the free values. -/
def Obligations.WrittenStorageNeedsNoFreeValue : Prop :=
  ∀ (i : Instr) (s : State) (d : Nat), ReadsOnlyWritten i s →
    ∃ t t', exec i s = .next t ∧ exec i { s with draws := d } = .next t' ∧ { t with draws := t'.draws } = t'

/-! The bus (10_state.md section 6, 20_memory.md) -/

/-- R43: the block accepts 32-bit accesses at multiples of 4 and completes them; every other access is a bus error.
The reset input is not asserted: under reset no access is accepted (R99). That window reads and commands complete on
unwritten storage is the model's choice (log entry 1); that the fault stops every agent is too (log entry 10). -/
def Obligations.OnlyAlignedWordsAreAccepted : Prop :=
  ∀ (master : Nat) (width : AccessWidth) (off : Offset) (v : Word) (s : State), s.inReset = false →
    if width = .w32 ∧ off.toNat % 4 = 0 then
      (∃ t, serve master (.read width off) s = .next t) ∧ (∃ t, serve master (.write width off v) s = .next t)
    else
      serve master (.read width off) s = .fault (.busError off) ∧
      serve master (.write width off v) s = .fault (.busError off)

/-- R48: the values of `MemRead` over the whole aperture, and that a read has no other effect than its answer. That a
read of unwritten window elements is answered, with free values, is the model's choice (log entry 1). -/
def Obligations.MemReadFollowsTheRegisterMap : Prop :=
  ∀ s : State,
    memRead 0x000#12 s = 0#32 ∧
    memRead 0x004#12 s = s.err.code.setWidth 32 ∧
    memRead 0x008#12 s = s.crc.setWidth 32 ∧
    memRead 0x00C#12 s = s.opa ∧
    memRead 0x010#12 s = s.res ∧
    memRead 0x014#12 s = BitVec.ofNat 32 s.bufLen.val ∧
    memRead 0x018#12 s = BitVec.ofNat 32 s.lenA.val ∧
    memRead 0x01C#12 s = BitVec.ofNat 32 s.lenB.val ∧
    (∀ k, k < 16 → memRead (BitVec.ofNat 12 (0x100 + 4 * k)) s = bufWord s k) ∧
    (∀ k, k < 16 → memRead (BitVec.ofNat 12 (0x140 + 4 * k)) s = bitWord s .a k) ∧
    (∀ k, k < 16 → memRead (BitVec.ofNat 12 (0x180 + 4 * k)) s = bitWord s .b k) ∧
    (∀ off : Offset, off.toNat % 4 = 0 → (0x020 ≤ off.toNat ∧ off.toNat < 0x100 ∨ 0x1C0 ≤ off.toNat) →
      memRead off s = 0#32) ∧
    (∀ (master : Nat) (width : AccessWidth) (off : Offset), s.inReset = false →
      serve master (.read width off) s =
        if off.toNat % 4 ≠ 0 ∨ width ≠ .w32 then .fault (.busError off)
        else .next { s with replies := s.replies ++ [⟨master, .data (memRead off s)⟩] })

/-- R49: the effects of `MemWrite` over the whole aperture; a host's aligned 32-bit write, when it is served, has
exactly that effect and is answered as done; a write of another width or alignment is a bus error. -/
def Obligations.MemWriteFollowsTheRegisterMap : Prop :=
  ∀ (v : Word) (s : State),
    memWrite 0x000#12 v s = execute v s ∧
    memWrite 0x004#12 v s = .next s ∧
    memWrite 0x010#12 v s = .next s ∧
    memWrite 0x008#12 v s = .next { s with crc := v.extractLsb' 0 16 } ∧
    memWrite 0x00C#12 v s = .next { s with opa := v } ∧
    memWrite 0x014#12 v s = .next (writeBufLen v s) ∧
    memWrite 0x018#12 v s = .next (writeLen .a v s) ∧
    memWrite 0x01C#12 v s = .next (writeLen .b v s) ∧
    (∀ k, k < 16 → memWrite (BitVec.ofNat 12 (0x100 + 4 * k)) v s = .next (writeBufWord k v s)) ∧
    (∀ k, k < 16 → memWrite (BitVec.ofNat 12 (0x140 + 4 * k)) v s = .next (writeBitWord .a k v s)) ∧
    (∀ k, k < 16 → memWrite (BitVec.ofNat 12 (0x180 + 4 * k)) v s = .next (writeBitWord .b k v s)) ∧
    (∀ off : Offset, off.toNat % 4 = 0 → (0x020 ≤ off.toNat ∧ off.toNat < 0x100 ∨ 0x1C0 ≤ off.toNat) →
      memWrite off v s = .next s) ∧
    (∀ (master : Nat) (width : AccessWidth) (off : Offset), off.toNat % 4 ≠ 0 ∨ width ≠ .w32 → s.inReset = false →
      serve master (.write width off v) s = .fault (.busError off)) ∧
    (∀ (master : Nat) (off : Offset) (t : State), off.toNat % 4 = 0 → s.inReset = false → memWrite off v s = .next t →
      serve master (.write .w32 off v) s = .next { t with replies := t.replies ++ [⟨master, .done⟩] })

/-- R31: the length writes, compared whole and unsigned. -/
def Obligations.LengthWritesAreRangeChecked : Prop :=
  ∀ (v : Word) (s : State),
    (∃ t, memWrite 0x014#12 v s = .next t ∧
      (v.toNat ≤ 64 → t = { s with bufLen := t.bufLen } ∧ t.bufLen.val = v.toNat) ∧
      (64 < v.toNat → t = { s with err := .range })) ∧
    (∃ t, memWrite 0x018#12 v s = .next t ∧
      (v.toNat ≤ 512 → t = { s with lenA := t.lenA } ∧ t.lenA.val = v.toNat) ∧
      (512 < v.toNat → t = { s with err := .range })) ∧
    (∃ t, memWrite 0x01C#12 v s = .next t ∧
      (v.toNat ≤ 512 → t = { s with lenB := t.lenB } ∧ t.lenB.val = v.toNat) ∧
      (512 < v.toNat → t = { s with err := .range }))

/-- R34: writes to the read-only registers are ignored, with no error response. -/
def Obligations.ReadOnlyRegistersIgnoreWrites : Prop :=
  ∀ (v : Word) (s : State) (master : Nat) (off : Offset), off = 0x004#12 ∨ off = 0x010#12 →
    memWrite off v s = .next s ∧
    (s.inReset = false →
      serve master (.write .w32 off v) s = .next { s with replies := s.replies ++ [⟨master, .done⟩] })

/-- R38: the reserved offsets read as 0 and ignore writes, with no error response. -/
def Obligations.ReservedOffsetsReadZeroIgnoreWrites : Prop :=
  ∀ (v : Word) (s : State) (master : Nat) (off : Offset), off.toNat % 4 = 0 →
    (0x020 ≤ off.toNat ∧ off.toNat ≤ 0x0FC ∨ 0x1C0 ≤ off.toNat ∧ off.toNat ≤ 0xFFC) → s.inReset = false →
    serve master (.read .w32 off) s = .next { s with replies := s.replies ++ [⟨master, .data 0#32⟩] } ∧
    serve master (.write .w32 off v) s = .next { s with replies := s.replies ++ [⟨master, .done⟩] }

/-- R28, R30: `STATUS` reads as the code of the last outcome, 0 to 4, with bits 31..4 zero. -/
def Obligations.StatusReadsTheErrCode : Prop :=
  (∀ (s : State) (i : Nat), 4 ≤ i → (memRead 0x004#12 s).getLsbD i = false) ∧
  (∀ s : State, (memRead 0x004#12 s).toNat =
    match s.err with | .none => 0 | .illegal => 1 | .lengthMismatch => 2 | .invalidInput => 3 | .range => 4)

/-- R36: the BUF window, the lowest-numbered byte in the most significant lane; it ignores `BUF_LEN` and a write
leaves `BUF_LEN` and everything else. That unwritten bytes read as free values is the model's choice (log entry 1). -/
def Obligations.BufWindowPacksBytes : Prop :=
  ∀ (s : State) (k : Nat), k < 16 →
    memRead (BitVec.ofNat 12 (0x100 + 4 * k)) s =
      ((s.byteAt (4 * k)).setWidth 32 <<< 24) ||| ((s.byteAt (4 * k + 1)).setWidth 32 <<< 16) |||
      ((s.byteAt (4 * k + 2)).setWidth 32 <<< 8) ||| (s.byteAt (4 * k + 3)).setWidth 32 ∧
    ∀ v : Word, ∃ t, memWrite (BitVec.ofNat 12 (0x100 + 4 * k)) v s = .next t ∧
      Memory.read t.buf (4 * k) = some (v.extractLsb' 24 8) ∧
      Memory.read t.buf (4 * k + 1) = some (v.extractLsb' 16 8) ∧
      Memory.read t.buf (4 * k + 2) = some (v.extractLsb' 8 8) ∧
      Memory.read t.buf (4 * k + 3) = some (v.extractLsb' 0 8) ∧
      (∀ q, q < 4 * k ∨ 4 * k + 4 ≤ q → Memory.read t.buf q = Memory.read s.buf q) ∧
      t = { s with buf := t.buf }

/-- R37: the A and B windows, the first position in the most significant bit; they ignore the lengths and a write
leaves the lengths and everything else; a read after a write gives the word written. That unwritten positions read as
free values is the model's choice (log entry 1). -/
def Obligations.BitWindowsPackPositions : Prop :=
  ∀ (s : State) (sel : Sel) (k : Nat) (off : Offset), k < 16 →
    (sel = .a ∧ off.toNat = 0x140 + 4 * k ∨ sel = .b ∧ off.toNat = 0x180 + 4 * k) →
    (∀ j, j < 32 → (memRead off s).getLsbD (31 - j) = s.bitAt sel (32 * k + j)) ∧
    ∀ v : Word, ∃ t, memWrite off v s = .next t ∧
      (∀ j, j < 32 → Memory.read (t.bits sel) (32 * k + j) = some (v.getLsbD (31 - j))) ∧
      (∀ p, p < 32 * k ∨ 32 * k + 32 ≤ p → Memory.read (t.bits sel) p = Memory.read (s.bits sel) p) ∧
      t = s.setBits sel (t.bits sel) ∧ memRead off t = v

/-- R37, R36, R74: after a `B2S`, the bit window word `k` holds the BUF window word `k` that the command read, where
all four bytes are of the sequence. That reading of the law is the model's (log entry 13), and so is completing on
unwritten bytes, with free values (log entry 1). -/
def Obligations.B2SKeepsWindowWords : Prop :=
  ∀ (sel : Sel) (s : State), ∃ t, exec (.b2s sel) s = .next t ∧
    ∀ k, 4 * k + 4 ≤ s.bufLen.val → bitWord t sel k = bufWord s k

/-- R35: reading twice with no write between gives the same word, whatever draws and answers come between, where every
element of a window is written. The other case, unwritten elements, is log entry 1. -/
def Obligations.ReadsAreStable : Prop :=
  ∀ (off : Offset) (s : State) (d : Nat) (r : List Reply) (q : List (List BusEvent)),
    (∀ k i, target off = .bufWindow k → i < 4 → (Memory.read s.buf (4 * k.val + i)).isSome = true) →
    (∀ sel k j, target off = .bitWindow sel k → j < 32 →
      (Memory.read (s.bits sel) (32 * k.val + j)).isSome = true) →
    memRead off { s with draws := d, replies := r, streams := q } = memRead off s

/-- R41, U13: the offset of a host address, for every `BASE`. That `BASE` is 4096 times an open number is the model's
form of it (log entry 5). -/
def Obligations.ApertureOffsets : Prop :=
  Config.base % 4096 = 0 ∧
  (∀ off : Offset, apertureOffset (hostAddress off) = some off) ∧
  (∀ addr off, apertureOffset addr = some off → addr - Config.base = off.toNat ∧ Config.base ≤ addr) ∧
  (∀ addr, addr < Config.base ∨ Config.base + 4096 ≤ addr → apertureOffset addr = none)

/-! Reset -/

/-- R100: the state after reset. -/
def Obligations.ResetValues : Prop :=
  State.reset.crc = 0xFFFF#16 ∧ State.reset.opa = 0x00000000#32 ∧ State.reset.res = 0x00000000#32 ∧
  State.reset.bufLen.val = 0 ∧ State.reset.lenA.val = 0 ∧ State.reset.lenB.val = 0 ∧ State.reset.err = .none ∧
  (∀ k, Memory.read State.reset.buf k = none) ∧ (∀ p, Memory.read State.reset.a p = none) ∧
  (∀ p, Memory.read State.reset.b p = none)

/-- R99, R101: asserting reset leaves the reset values and no written element, from every state; releasing it leaves
`State.reset` but for what is outside the block. That an access meeting the asserted reset is dropped and answered
`notAccepted` is the model's choice, log entry 6. -/
def Obligations.ResetFromEveryState : Prop :=
  ∀ (master : Nat) (s : State), ∃ t u, serve master .assertReset s = .next t ∧ t.inReset = true ∧
    (∀ (j : Nat) (width : AccessWidth) (off : Offset) (v : Word),
      serve j (.read width off) t = .next (t.reply j .notAccepted) ∧
      serve j (.write width off v) t = .next (t.reply j .notAccepted)) ∧
    serve master .releaseReset t = .next u ∧
    u = { State.reset with streams := s.streams, replies := s.replies, draws := s.draws }

/-! The step -/

/-- R29, R50, R55: a step that serves a `CMD` write whose word decodes runs that instruction, on the state with the
write taken off and its draw used up, and then answers the write. How a command comes to run is the model's form of it
(log entries 3, 4 and 9). -/
def Obligations.StepRunsTheDecodedCommand : Prop :=
  (∀ (s s' : State) (j : Nat) (v : Word) (i : Instr),
    nextEvent s = some (j, cmdWrite v, s') → s'.inReset = false → decode v = .instr i →
    step s = answerWrite j (exec i s')) ∧
  (∀ (s : State) (v : Word) (i : Instr) (es : List BusEvent),
    s.streams = [cmdWrite v :: es] → s.inReset = false → decode v = .instr i →
    step s = answerWrite 0 (exec i { s with streams := [es], draws := s.draws + 1 })) ∧
  (∀ (s : State) (nbits w : Nat) (i : Instr), decodeTableWord nbits w = some i →
    step (s.withFetchWord nbits w) =
      answerWrite 0 (exec i { s with streams := [[]], inReset := false, draws := s.draws + 1 }))

/-- R50, R52, R100: a step serves the oldest event of one agent and leaves every other waiting event in place; with no
event waiting it changes nothing. The draw and the lists of waiting events are the model's form of the hosts (log
entries 2, 3 and 4). -/
def Obligations.StepServesTheOldestEventOfOneAgent : Prop :=
  ∀ s : State,
    ((∀ q ∈ s.streams, q = []) → step s = .next s) ∧
    ((∃ q ∈ s.streams, q ≠ []) → ∃ j e es, s.streams[j]? = some (e :: es) ∧
      step s = serve j e { s with streams := s.streams.set j es, draws := s.draws + 1 })

/-- The memories keep their canonical form and their capacity (R24, R25) through every step, from every state. -/
def Obligations.StepKeepsTheInvariant : Prop :=
  ∀ s t : State, s.Inv → step s = .next t → t.Inv

/-- The invariant holds at reset (R27, R100). -/
def Obligations.ResetMeetsTheInvariant : Prop :=
  State.reset.Inv

/-- R88, R95, R102, R105: hosts that use aligned 32-bit accesses only never stop the machine, from any state, however
many steps it makes and however the interconnect orders them. Completing on unwritten storage is the model's choice
(log entry 1). -/
def Obligations.DutifulHostsNeverFault : Prop :=
  ∀ (n : Nat) (s : State), s.DutyKept → ∃ t, Host.Core.run core n s = .next t ∧ t.DutyKept
end

