-- ==== Sys2Proof/Laws/Memory.lean ====
section
/-! SUPPORT. The laws of the sparse memory: what a read after a write or a fill gives, and that both keep the canonical form
and the capacity. -/

namespace Sys2Proof.Machine

variable {α : Type}

@[simp] theorem Memory.read_nil (k : Nat) : Memory.read ([] : Memory α) k = none := rfl

/-- A memory whose keys are all above `k` holds nothing at `k`. -/
theorem Memory.read_none_of_lt {m : Memory α} {k : Nat} (h : ∀ c ∈ m, k < c.1) : Memory.read m k = none := by
  induction m with
  | nil => rfl
  | cons c m ih =>
    have hc := h c (by simp)
    simp only [Memory.read]
    rw [if_neg (by omega)]
    exact ih (fun d hd => h d (by simp [hd]))

/-- A listed key reads as a value. -/
theorem Memory.read_isSome_iff {m : Memory α} {k : Nat} : (Memory.read m k).isSome ↔ ∃ c ∈ m, c.1 = k := by
  induction m with
  | nil => simp
  | cons c m ih =>
    obtain ⟨j, w⟩ := c
    simp only [Memory.read]
    split
    · rename_i h; simp [h]
    · rename_i h; simp [h, ih]

/-- A read after a write gives the value written at its key, and what was there elsewhere. -/
theorem Memory.read_write (m : Memory α) (k k' : Nat) (v : α) :
    Memory.read (Memory.write m k v) k' = if k = k' then some v else Memory.read m k' := by
  induction m with
  | nil => simp [Memory.write, Memory.read]
  | cons c m ih =>
    obtain ⟨j, w⟩ := c
    simp only [Memory.write]
    split
    · simp [Memory.read]
    · split
      · rename_i h; subst h; simp only [Memory.read]; split <;> rfl
      · rename_i h1 h2
        simp only [Memory.read, ih]
        by_cases hj : j = k'
        · rw [if_pos hj, if_neg (by omega), if_pos hj]
        · simp [hj]

/-- A read after a fill gives the filled value inside the range, and what was there outside it. -/
theorem Memory.read_fill (m : Memory α) (start : Nat) (f : Nat → α) (n k : Nat) :
    Memory.read (Memory.fill m start f n) k =
      if start ≤ k ∧ k < start + n then some (f (k - start)) else Memory.read m k := by
  induction n with
  | zero => rw [Memory.fill, if_neg (by omega)]
  | succ n ih =>
    rw [Memory.fill, Memory.read_write, ih]
    by_cases h : start + n = k
    · subst h; simp
    · by_cases h2 : start ≤ k ∧ k < start + n
      · rw [if_neg h, if_pos h2, if_pos (by omega)]
      · rw [if_neg h, if_neg h2, if_neg (by omega)]

/-- The keys after a write: the old ones and the key written. -/
theorem Memory.mem_write {m : Memory α} {k : Nat} {v : α} {c : Nat × α} (h : c ∈ Memory.write m k v) :
    c = (k, v) ∨ c ∈ m := by
  induction m with
  | nil => simpa [Memory.write] using h
  | cons d m ih =>
    obtain ⟨j, w⟩ := d
    simp only [Memory.write] at h
    split at h
    · simpa using h
    · split at h
      · rcases List.mem_cons.1 h with h | h
        · exact .inl h
        · exact .inr (by simp [h])
      · rcases List.mem_cons.1 h with h | h
        · exact .inr (by simp [h])
        · rcases ih h with h | h
          · exact .inl h
          · exact .inr (by simp [h])

/-- A write keeps the canonical form. -/
theorem Memory.wf_write {m : Memory α} (h : Memory.wf m) (k : Nat) (v : α) : Memory.wf (Memory.write m k v) := by
  induction m with
  | nil => simp [Memory.write, Memory.wf]
  | cons d m ih =>
    obtain ⟨j, w⟩ := d
    obtain ⟨hd, hm⟩ := List.pairwise_cons.1 h
    simp only [Memory.write]
    split
    · rename_i hk
      refine List.pairwise_cons.2 ⟨?_, h⟩
      intro c hc
      rcases List.mem_cons.1 hc with rfl | hc
      · exact hk
      · exact Nat.lt_trans hk (hd c hc)
    · split
      · rename_i hk
        subst hk
        exact List.pairwise_cons.2 ⟨hd, hm⟩
      · rename_i h1 h2
        refine List.pairwise_cons.2 ⟨?_, ih hm⟩
        intro c hc
        rcases Memory.mem_write hc with rfl | hc
        · exact Nat.lt_of_le_of_ne (Nat.le_of_not_lt h1) (fun e => h2 e.symm)
        · exact hd c hc

/-- A write below the capacity keeps every key below it. -/
theorem Memory.below_write {m : Memory α} {n k : Nat} (h : Memory.below n m) (hk : k < n) (v : α) :
    Memory.below n (Memory.write m k v) := by
  intro c hc
  rcases Memory.mem_write hc with rfl | hc
  · exact hk
  · exact h c hc

/-- A fill keeps the canonical form. -/
theorem Memory.wf_fill {m : Memory α} (h : Memory.wf m) (start : Nat) (f : Nat → α) (n : Nat) :
    Memory.wf (Memory.fill m start f n) := by
  induction n with
  | zero => exact h
  | succ n ih => exact Memory.wf_write ih _ _

/-- A fill below the capacity keeps every key below it. -/
theorem Memory.below_fill {m : Memory α} {cap start n : Nat} (h : Memory.below cap m) (hn : start + n ≤ cap)
    (f : Nat → α) : Memory.below cap (Memory.fill m start f n) := by
  induction n with
  | zero => exact h
  | succ n ih => exact Memory.below_write (ih (by omega)) (by omega) _

/-- Two canonical memories that read the same are the same list. -/
theorem Memory.ext_read {m m' : Memory α} (h : Memory.wf m) (h' : Memory.wf m')
    (he : ∀ k, Memory.read m k = Memory.read m' k) : m = m' := by
  induction m generalizing m' with
  | nil =>
    cases m' with
    | nil => rfl
    | cons c m' => have := he c.1; simp [Memory.read] at this
  | cons c m ih =>
    cases m' with
    | nil => have := he c.1; simp [Memory.read] at this
    | cons d m' =>
      obtain ⟨j, w⟩ := c
      obtain ⟨j', w'⟩ := d
      obtain ⟨hc, hm⟩ := List.pairwise_cons.1 h
      obtain ⟨hd, hm'⟩ := List.pairwise_cons.1 h'
      have hj : j = j' := by
        rcases Nat.lt_trichotomy j j' with hlt | heq | hgt
        · have e := he j
          rw [Memory.read, if_pos rfl, Memory.read_none_of_lt (m := (j', w') :: m')] at e
          · simp at e
          · intro c hc'
            rcases List.mem_cons.1 hc' with rfl | hc'
            · exact hlt
            · exact Nat.lt_trans hlt (hd c hc')
        · exact heq
        · have e := he j'
          rw [Memory.read_none_of_lt (m := (j, w) :: m), Memory.read, if_pos rfl] at e
          · simp at e
          · intro c hc'
            rcases List.mem_cons.1 hc' with rfl | hc'
            · exact hgt
            · exact Nat.lt_trans hgt (hc c hc')
      subst hj
      have hw : w = w' := by simpa [Memory.read] using he j
      subst hw
      refine congrArg _ (ih hm hm' (fun k => ?_))
      have e := he k
      simp only [Memory.read] at e
      by_cases hk : j = k
      · subst hk
        rw [Memory.read_none_of_lt hc, Memory.read_none_of_lt hd]
      · simpa [hk] using e

end Sys2Proof.Machine
end

