-- ==== Sys2Proof/Laws/State.lean ====
section
/-! SUPPORT. One lemma per field per update of State, so that no proof unfolds a record update. -/

namespace Sys2Proof.Machine

variable (s : State)

/-! setRes -/

@[simp] theorem State.setRes_opa (v : Word) : (s.setRes v).opa = s.opa := rfl
@[simp] theorem State.setRes_res (v : Word) : (s.setRes v).res = v := rfl
@[simp] theorem State.setRes_crc (v : Word) : (s.setRes v).crc = s.crc := rfl
@[simp] theorem State.setRes_buf (v : Word) : (s.setRes v).buf = s.buf := rfl
@[simp] theorem State.setRes_bufLen (v : Word) : (s.setRes v).bufLen = s.bufLen := rfl
@[simp] theorem State.setRes_a (v : Word) : (s.setRes v).a = s.a := rfl
@[simp] theorem State.setRes_lenA (v : Word) : (s.setRes v).lenA = s.lenA := rfl
@[simp] theorem State.setRes_b (v : Word) : (s.setRes v).b = s.b := rfl
@[simp] theorem State.setRes_lenB (v : Word) : (s.setRes v).lenB = s.lenB := rfl
@[simp] theorem State.setRes_err (v : Word) : (s.setRes v).err = s.err := rfl
@[simp] theorem State.setRes_inReset (v : Word) : (s.setRes v).inReset = s.inReset := rfl
@[simp] theorem State.setRes_streams (v : Word) : (s.setRes v).streams = s.streams := rfl
@[simp] theorem State.setRes_replies (v : Word) : (s.setRes v).replies = s.replies := rfl
@[simp] theorem State.setRes_draws (v : Word) : (s.setRes v).draws = s.draws := rfl
@[simp] theorem State.setRes_bits (v : Word) (sel : Sel) : (s.setRes v).bits sel = s.bits sel := by cases sel <;> rfl
@[simp] theorem State.setRes_len (v : Word) (sel : Sel) : (s.setRes v).len sel = s.len sel := by cases sel <;> rfl

/-! setOpa -/

@[simp] theorem State.setOpa_opa (v : Word) : (s.setOpa v).opa = v := rfl
@[simp] theorem State.setOpa_res (v : Word) : (s.setOpa v).res = s.res := rfl
@[simp] theorem State.setOpa_crc (v : Word) : (s.setOpa v).crc = s.crc := rfl
@[simp] theorem State.setOpa_buf (v : Word) : (s.setOpa v).buf = s.buf := rfl
@[simp] theorem State.setOpa_bufLen (v : Word) : (s.setOpa v).bufLen = s.bufLen := rfl
@[simp] theorem State.setOpa_a (v : Word) : (s.setOpa v).a = s.a := rfl
@[simp] theorem State.setOpa_lenA (v : Word) : (s.setOpa v).lenA = s.lenA := rfl
@[simp] theorem State.setOpa_b (v : Word) : (s.setOpa v).b = s.b := rfl
@[simp] theorem State.setOpa_lenB (v : Word) : (s.setOpa v).lenB = s.lenB := rfl
@[simp] theorem State.setOpa_err (v : Word) : (s.setOpa v).err = s.err := rfl
@[simp] theorem State.setOpa_inReset (v : Word) : (s.setOpa v).inReset = s.inReset := rfl
@[simp] theorem State.setOpa_streams (v : Word) : (s.setOpa v).streams = s.streams := rfl
@[simp] theorem State.setOpa_replies (v : Word) : (s.setOpa v).replies = s.replies := rfl
@[simp] theorem State.setOpa_draws (v : Word) : (s.setOpa v).draws = s.draws := rfl
@[simp] theorem State.setOpa_bits (v : Word) (sel : Sel) : (s.setOpa v).bits sel = s.bits sel := by cases sel <;> rfl
@[simp] theorem State.setOpa_len (v : Word) (sel : Sel) : (s.setOpa v).len sel = s.len sel := by cases sel <;> rfl

/-! setCrc -/

@[simp] theorem State.setCrc_opa (v : Half) : (s.setCrc v).opa = s.opa := rfl
@[simp] theorem State.setCrc_res (v : Half) : (s.setCrc v).res = s.res := rfl
@[simp] theorem State.setCrc_crc (v : Half) : (s.setCrc v).crc = v := rfl
@[simp] theorem State.setCrc_buf (v : Half) : (s.setCrc v).buf = s.buf := rfl
@[simp] theorem State.setCrc_bufLen (v : Half) : (s.setCrc v).bufLen = s.bufLen := rfl
@[simp] theorem State.setCrc_a (v : Half) : (s.setCrc v).a = s.a := rfl
@[simp] theorem State.setCrc_lenA (v : Half) : (s.setCrc v).lenA = s.lenA := rfl
@[simp] theorem State.setCrc_b (v : Half) : (s.setCrc v).b = s.b := rfl
@[simp] theorem State.setCrc_lenB (v : Half) : (s.setCrc v).lenB = s.lenB := rfl
@[simp] theorem State.setCrc_err (v : Half) : (s.setCrc v).err = s.err := rfl
@[simp] theorem State.setCrc_inReset (v : Half) : (s.setCrc v).inReset = s.inReset := rfl
@[simp] theorem State.setCrc_streams (v : Half) : (s.setCrc v).streams = s.streams := rfl
@[simp] theorem State.setCrc_replies (v : Half) : (s.setCrc v).replies = s.replies := rfl
@[simp] theorem State.setCrc_draws (v : Half) : (s.setCrc v).draws = s.draws := rfl
@[simp] theorem State.setCrc_bits (v : Half) (sel : Sel) : (s.setCrc v).bits sel = s.bits sel := by cases sel <;> rfl
@[simp] theorem State.setCrc_len (v : Half) (sel : Sel) : (s.setCrc v).len sel = s.len sel := by cases sel <;> rfl

/-! setBuf -/

@[simp] theorem State.setBuf_opa (m : Memory Byte) : (s.setBuf m).opa = s.opa := rfl
@[simp] theorem State.setBuf_res (m : Memory Byte) : (s.setBuf m).res = s.res := rfl
@[simp] theorem State.setBuf_crc (m : Memory Byte) : (s.setBuf m).crc = s.crc := rfl
@[simp] theorem State.setBuf_buf (m : Memory Byte) : (s.setBuf m).buf = m := rfl
@[simp] theorem State.setBuf_bufLen (m : Memory Byte) : (s.setBuf m).bufLen = s.bufLen := rfl
@[simp] theorem State.setBuf_a (m : Memory Byte) : (s.setBuf m).a = s.a := rfl
@[simp] theorem State.setBuf_lenA (m : Memory Byte) : (s.setBuf m).lenA = s.lenA := rfl
@[simp] theorem State.setBuf_b (m : Memory Byte) : (s.setBuf m).b = s.b := rfl
@[simp] theorem State.setBuf_lenB (m : Memory Byte) : (s.setBuf m).lenB = s.lenB := rfl
@[simp] theorem State.setBuf_err (m : Memory Byte) : (s.setBuf m).err = s.err := rfl
@[simp] theorem State.setBuf_inReset (m : Memory Byte) : (s.setBuf m).inReset = s.inReset := rfl
@[simp] theorem State.setBuf_streams (m : Memory Byte) : (s.setBuf m).streams = s.streams := rfl
@[simp] theorem State.setBuf_replies (m : Memory Byte) : (s.setBuf m).replies = s.replies := rfl
@[simp] theorem State.setBuf_draws (m : Memory Byte) : (s.setBuf m).draws = s.draws := rfl
@[simp] theorem State.setBuf_bits (m : Memory Byte) (sel : Sel) : (s.setBuf m).bits sel = s.bits sel := by cases sel <;> rfl
@[simp] theorem State.setBuf_len (m : Memory Byte) (sel : Sel) : (s.setBuf m).len sel = s.len sel := by cases sel <;> rfl

/-! setBufLen -/

@[simp] theorem State.setBufLen_opa (n : Fin 65) : (s.setBufLen n).opa = s.opa := rfl
@[simp] theorem State.setBufLen_res (n : Fin 65) : (s.setBufLen n).res = s.res := rfl
@[simp] theorem State.setBufLen_crc (n : Fin 65) : (s.setBufLen n).crc = s.crc := rfl
@[simp] theorem State.setBufLen_buf (n : Fin 65) : (s.setBufLen n).buf = s.buf := rfl
@[simp] theorem State.setBufLen_bufLen (n : Fin 65) : (s.setBufLen n).bufLen = n := rfl
@[simp] theorem State.setBufLen_a (n : Fin 65) : (s.setBufLen n).a = s.a := rfl
@[simp] theorem State.setBufLen_lenA (n : Fin 65) : (s.setBufLen n).lenA = s.lenA := rfl
@[simp] theorem State.setBufLen_b (n : Fin 65) : (s.setBufLen n).b = s.b := rfl
@[simp] theorem State.setBufLen_lenB (n : Fin 65) : (s.setBufLen n).lenB = s.lenB := rfl
@[simp] theorem State.setBufLen_err (n : Fin 65) : (s.setBufLen n).err = s.err := rfl
@[simp] theorem State.setBufLen_inReset (n : Fin 65) : (s.setBufLen n).inReset = s.inReset := rfl
@[simp] theorem State.setBufLen_streams (n : Fin 65) : (s.setBufLen n).streams = s.streams := rfl
@[simp] theorem State.setBufLen_replies (n : Fin 65) : (s.setBufLen n).replies = s.replies := rfl
@[simp] theorem State.setBufLen_draws (n : Fin 65) : (s.setBufLen n).draws = s.draws := rfl
@[simp] theorem State.setBufLen_bits (n : Fin 65) (sel : Sel) : (s.setBufLen n).bits sel = s.bits sel := by cases sel <;> rfl
@[simp] theorem State.setBufLen_len (n : Fin 65) (sel : Sel) : (s.setBufLen n).len sel = s.len sel := by cases sel <;> rfl

/-! setErr -/

@[simp] theorem State.setErr_opa (c : ErrCode) : (s.setErr c).opa = s.opa := rfl
@[simp] theorem State.setErr_res (c : ErrCode) : (s.setErr c).res = s.res := rfl
@[simp] theorem State.setErr_crc (c : ErrCode) : (s.setErr c).crc = s.crc := rfl
@[simp] theorem State.setErr_buf (c : ErrCode) : (s.setErr c).buf = s.buf := rfl
@[simp] theorem State.setErr_bufLen (c : ErrCode) : (s.setErr c).bufLen = s.bufLen := rfl
@[simp] theorem State.setErr_a (c : ErrCode) : (s.setErr c).a = s.a := rfl
@[simp] theorem State.setErr_lenA (c : ErrCode) : (s.setErr c).lenA = s.lenA := rfl
@[simp] theorem State.setErr_b (c : ErrCode) : (s.setErr c).b = s.b := rfl
@[simp] theorem State.setErr_lenB (c : ErrCode) : (s.setErr c).lenB = s.lenB := rfl
@[simp] theorem State.setErr_err (c : ErrCode) : (s.setErr c).err = c := rfl
@[simp] theorem State.setErr_inReset (c : ErrCode) : (s.setErr c).inReset = s.inReset := rfl
@[simp] theorem State.setErr_streams (c : ErrCode) : (s.setErr c).streams = s.streams := rfl
@[simp] theorem State.setErr_replies (c : ErrCode) : (s.setErr c).replies = s.replies := rfl
@[simp] theorem State.setErr_draws (c : ErrCode) : (s.setErr c).draws = s.draws := rfl
@[simp] theorem State.setErr_bits (c : ErrCode) (sel : Sel) : (s.setErr c).bits sel = s.bits sel := by cases sel <;> rfl
@[simp] theorem State.setErr_len (c : ErrCode) (sel : Sel) : (s.setErr c).len sel = s.len sel := by cases sel <;> rfl

/-! draw -/

@[simp] theorem State.draw_opa : (s.draw).opa = s.opa := rfl
@[simp] theorem State.draw_res : (s.draw).res = s.res := rfl
@[simp] theorem State.draw_crc : (s.draw).crc = s.crc := rfl
@[simp] theorem State.draw_buf : (s.draw).buf = s.buf := rfl
@[simp] theorem State.draw_bufLen : (s.draw).bufLen = s.bufLen := rfl
@[simp] theorem State.draw_a : (s.draw).a = s.a := rfl
@[simp] theorem State.draw_lenA : (s.draw).lenA = s.lenA := rfl
@[simp] theorem State.draw_b : (s.draw).b = s.b := rfl
@[simp] theorem State.draw_lenB : (s.draw).lenB = s.lenB := rfl
@[simp] theorem State.draw_err : (s.draw).err = s.err := rfl
@[simp] theorem State.draw_inReset : (s.draw).inReset = s.inReset := rfl
@[simp] theorem State.draw_streams : (s.draw).streams = s.streams := rfl
@[simp] theorem State.draw_replies : (s.draw).replies = s.replies := rfl
@[simp] theorem State.draw_draws : (s.draw).draws = s.draws + 1 := rfl
@[simp] theorem State.draw_bits (sel : Sel) : (s.draw).bits sel = s.bits sel := by cases sel <;> rfl
@[simp] theorem State.draw_len (sel : Sel) : (s.draw).len sel = s.len sel := by cases sel <;> rfl

/-! reply -/

@[simp] theorem State.reply_opa (j : Nat) (r : Answer) : (s.reply j r).opa = s.opa := rfl
@[simp] theorem State.reply_res (j : Nat) (r : Answer) : (s.reply j r).res = s.res := rfl
@[simp] theorem State.reply_crc (j : Nat) (r : Answer) : (s.reply j r).crc = s.crc := rfl
@[simp] theorem State.reply_buf (j : Nat) (r : Answer) : (s.reply j r).buf = s.buf := rfl
@[simp] theorem State.reply_bufLen (j : Nat) (r : Answer) : (s.reply j r).bufLen = s.bufLen := rfl
@[simp] theorem State.reply_a (j : Nat) (r : Answer) : (s.reply j r).a = s.a := rfl
@[simp] theorem State.reply_lenA (j : Nat) (r : Answer) : (s.reply j r).lenA = s.lenA := rfl
@[simp] theorem State.reply_b (j : Nat) (r : Answer) : (s.reply j r).b = s.b := rfl
@[simp] theorem State.reply_lenB (j : Nat) (r : Answer) : (s.reply j r).lenB = s.lenB := rfl
@[simp] theorem State.reply_err (j : Nat) (r : Answer) : (s.reply j r).err = s.err := rfl
@[simp] theorem State.reply_inReset (j : Nat) (r : Answer) : (s.reply j r).inReset = s.inReset := rfl
@[simp] theorem State.reply_streams (j : Nat) (r : Answer) : (s.reply j r).streams = s.streams := rfl
@[simp] theorem State.reply_replies (j : Nat) (r : Answer) : (s.reply j r).replies = s.replies ++ [⟨j, r⟩] := rfl
@[simp] theorem State.reply_draws (j : Nat) (r : Answer) : (s.reply j r).draws = s.draws := rfl
@[simp] theorem State.reply_bits (j : Nat) (r : Answer) (sel : Sel) : (s.reply j r).bits sel = s.bits sel := by cases sel <;> rfl
@[simp] theorem State.reply_len (j : Nat) (r : Answer) (sel : Sel) : (s.reply j r).len sel = s.len sel := by cases sel <;> rfl

/-! assertReset -/

@[simp] theorem State.assertReset_opa : (s.assertReset).opa = 0#32 := rfl
@[simp] theorem State.assertReset_res : (s.assertReset).res = 0#32 := rfl
@[simp] theorem State.assertReset_crc : (s.assertReset).crc = Config.crcInit := rfl
@[simp] theorem State.assertReset_buf : (s.assertReset).buf = [] := rfl
@[simp] theorem State.assertReset_bufLen : (s.assertReset).bufLen = 0 := rfl
@[simp] theorem State.assertReset_a : (s.assertReset).a = [] := rfl
@[simp] theorem State.assertReset_lenA : (s.assertReset).lenA = 0 := rfl
@[simp] theorem State.assertReset_b : (s.assertReset).b = [] := rfl
@[simp] theorem State.assertReset_lenB : (s.assertReset).lenB = 0 := rfl
@[simp] theorem State.assertReset_err : (s.assertReset).err = .none := rfl
@[simp] theorem State.assertReset_inReset : (s.assertReset).inReset = true := rfl
@[simp] theorem State.assertReset_streams : (s.assertReset).streams = s.streams := rfl
@[simp] theorem State.assertReset_replies : (s.assertReset).replies = s.replies := rfl
@[simp] theorem State.assertReset_draws : (s.assertReset).draws = s.draws := rfl
@[simp] theorem State.assertReset_bits (sel : Sel) : (s.assertReset).bits sel = [] := by cases sel <;> rfl
@[simp] theorem State.assertReset_len (sel : Sel) : (s.assertReset).len sel = 0 := by cases sel <;> rfl

/-! releaseReset -/

@[simp] theorem State.releaseReset_opa : (s.releaseReset).opa = s.opa := rfl
@[simp] theorem State.releaseReset_res : (s.releaseReset).res = s.res := rfl
@[simp] theorem State.releaseReset_crc : (s.releaseReset).crc = s.crc := rfl
@[simp] theorem State.releaseReset_buf : (s.releaseReset).buf = s.buf := rfl
@[simp] theorem State.releaseReset_bufLen : (s.releaseReset).bufLen = s.bufLen := rfl
@[simp] theorem State.releaseReset_a : (s.releaseReset).a = s.a := rfl
@[simp] theorem State.releaseReset_lenA : (s.releaseReset).lenA = s.lenA := rfl
@[simp] theorem State.releaseReset_b : (s.releaseReset).b = s.b := rfl
@[simp] theorem State.releaseReset_lenB : (s.releaseReset).lenB = s.lenB := rfl
@[simp] theorem State.releaseReset_err : (s.releaseReset).err = s.err := rfl
@[simp] theorem State.releaseReset_inReset : (s.releaseReset).inReset = false := rfl
@[simp] theorem State.releaseReset_streams : (s.releaseReset).streams = s.streams := rfl
@[simp] theorem State.releaseReset_replies : (s.releaseReset).replies = s.replies := rfl
@[simp] theorem State.releaseReset_draws : (s.releaseReset).draws = s.draws := rfl
@[simp] theorem State.releaseReset_bits (sel : Sel) : (s.releaseReset).bits sel = s.bits sel := by cases sel <;> rfl
@[simp] theorem State.releaseReset_len (sel : Sel) : (s.releaseReset).len sel = s.len sel := by cases sel <;> rfl

/-! setBits -/

@[simp] theorem State.setBits_opa (sel : Sel) (m : Memory Bool) : (s.setBits sel m).opa = s.opa := by cases sel <;> rfl
@[simp] theorem State.setBits_res (sel : Sel) (m : Memory Bool) : (s.setBits sel m).res = s.res := by cases sel <;> rfl
@[simp] theorem State.setBits_crc (sel : Sel) (m : Memory Bool) : (s.setBits sel m).crc = s.crc := by cases sel <;> rfl
@[simp] theorem State.setBits_buf (sel : Sel) (m : Memory Bool) : (s.setBits sel m).buf = s.buf := by cases sel <;> rfl
@[simp] theorem State.setBits_bufLen (sel : Sel) (m : Memory Bool) : (s.setBits sel m).bufLen = s.bufLen := by cases sel <;> rfl
@[simp] theorem State.setBits_lenA (sel : Sel) (m : Memory Bool) : (s.setBits sel m).lenA = s.lenA := by cases sel <;> rfl
@[simp] theorem State.setBits_lenB (sel : Sel) (m : Memory Bool) : (s.setBits sel m).lenB = s.lenB := by cases sel <;> rfl
@[simp] theorem State.setBits_err (sel : Sel) (m : Memory Bool) : (s.setBits sel m).err = s.err := by cases sel <;> rfl
@[simp] theorem State.setBits_inReset (sel : Sel) (m : Memory Bool) : (s.setBits sel m).inReset = s.inReset := by cases sel <;> rfl
@[simp] theorem State.setBits_streams (sel : Sel) (m : Memory Bool) : (s.setBits sel m).streams = s.streams := by cases sel <;> rfl
@[simp] theorem State.setBits_replies (sel : Sel) (m : Memory Bool) : (s.setBits sel m).replies = s.replies := by cases sel <;> rfl
@[simp] theorem State.setBits_draws (sel : Sel) (m : Memory Bool) : (s.setBits sel m).draws = s.draws := by cases sel <;> rfl
@[simp] theorem State.setBits_len (sel sel' : Sel) (m : Memory Bool) : (s.setBits sel m).len sel' = s.len sel' := by
  cases sel <;> cases sel' <;> rfl
@[simp] theorem State.setBits_bits_same (sel : Sel) (m : Memory Bool) : (s.setBits sel m).bits sel = m := by cases sel <;> rfl
@[simp] theorem State.setBits_bits_other (sel : Sel) (m : Memory Bool) : (s.setBits sel m).bits sel.other = s.bits sel.other := by
  cases sel <;> rfl
@[simp] theorem State.setBits_a_a (m : Memory Bool) : (s.setBits .a m).a = m := rfl
@[simp] theorem State.setBits_a_b (m : Memory Bool) : (s.setBits .a m).b = s.b := rfl
@[simp] theorem State.setBits_b_a (m : Memory Bool) : (s.setBits .b m).a = s.a := rfl
@[simp] theorem State.setBits_b_b (m : Memory Bool) : (s.setBits .b m).b = m := rfl

/-! setLen -/

@[simp] theorem State.setLen_opa (sel : Sel) (n : Fin 513) : (s.setLen sel n).opa = s.opa := by cases sel <;> rfl
@[simp] theorem State.setLen_res (sel : Sel) (n : Fin 513) : (s.setLen sel n).res = s.res := by cases sel <;> rfl
@[simp] theorem State.setLen_crc (sel : Sel) (n : Fin 513) : (s.setLen sel n).crc = s.crc := by cases sel <;> rfl
@[simp] theorem State.setLen_buf (sel : Sel) (n : Fin 513) : (s.setLen sel n).buf = s.buf := by cases sel <;> rfl
@[simp] theorem State.setLen_bufLen (sel : Sel) (n : Fin 513) : (s.setLen sel n).bufLen = s.bufLen := by cases sel <;> rfl
@[simp] theorem State.setLen_a (sel : Sel) (n : Fin 513) : (s.setLen sel n).a = s.a := by cases sel <;> rfl
@[simp] theorem State.setLen_b (sel : Sel) (n : Fin 513) : (s.setLen sel n).b = s.b := by cases sel <;> rfl
@[simp] theorem State.setLen_err (sel : Sel) (n : Fin 513) : (s.setLen sel n).err = s.err := by cases sel <;> rfl
@[simp] theorem State.setLen_inReset (sel : Sel) (n : Fin 513) : (s.setLen sel n).inReset = s.inReset := by cases sel <;> rfl
@[simp] theorem State.setLen_streams (sel : Sel) (n : Fin 513) : (s.setLen sel n).streams = s.streams := by cases sel <;> rfl
@[simp] theorem State.setLen_replies (sel : Sel) (n : Fin 513) : (s.setLen sel n).replies = s.replies := by cases sel <;> rfl
@[simp] theorem State.setLen_draws (sel : Sel) (n : Fin 513) : (s.setLen sel n).draws = s.draws := by cases sel <;> rfl
@[simp] theorem State.setLen_bits (sel sel' : Sel) (n : Fin 513) : (s.setLen sel n).bits sel' = s.bits sel' := by
  cases sel <;> cases sel' <;> rfl
@[simp] theorem State.setLen_len_same (sel : Sel) (n : Fin 513) : (s.setLen sel n).len sel = n := by cases sel <;> rfl
@[simp] theorem State.setLen_len_other (sel : Sel) (n : Fin 513) : (s.setLen sel n).len sel.other = s.len sel.other := by
  cases sel <;> rfl
@[simp] theorem State.setLen_a_lenA (n : Fin 513) : (s.setLen .a n).lenA = n := rfl
@[simp] theorem State.setLen_a_lenB (n : Fin 513) : (s.setLen .a n).lenB = s.lenB := rfl
@[simp] theorem State.setLen_b_lenA (n : Fin 513) : (s.setLen .b n).lenA = s.lenA := rfl
@[simp] theorem State.setLen_b_lenB (n : Fin 513) : (s.setLen .b n).lenB = n := rfl

end Sys2Proof.Machine
end

