-- ==== Sys2Proof/Laws/Operands.lean ====
section
/-! SUPPORT. The laws of the operand forms: the packing of positions into words, and what a written element reads as. -/

namespace Sys2Proof.Machine

/-- Bit `i` of packed positions is position `n - 1 - i` (R37, R46). -/
theorem packMsb_getLsbD (n : Nat) (f : Nat → Bool) (i : Nat) :
    (packMsb n f).getLsbD i = (decide (i < n) && f (n - 1 - i)) := by
  induction n generalizing i with
  | zero => simp [packMsb]
  | succ n ih =>
    cases i with
    | zero => simp [packMsb]
    | succ i =>
      simp only [packMsb, BitVec.getLsbD_concat, Nat.succ_ne_zero, if_false, Nat.add_sub_cancel, ih]
      by_cases h : i < n
      · rw [show n - (i + 1) = n - 1 - i by omega]; simp [h]
      · simp [h]

/-- Only the first `n` positions matter to a packed word. -/
theorem packMsb_congr {n : Nat} {f g : Nat → Bool} (h : ∀ j < n, f j = g j) : packMsb n f = packMsb n g := by
  induction n with
  | zero => rfl
  | succ n ih => rw [packMsb, packMsb, ih (fun j hj => h j (by omega)), h n (by omega)]

/-- Packing the positions of a value gives the value back. -/
theorem packMsb_wordBit (v : Word) : packMsb 32 (wordBit v) = v := by
  apply BitVec.eq_of_getLsbD_eq
  intro i hi
  rw [packMsb_getLsbD]
  simp only [wordBit, hi, decide_true, Bool.true_and]
  congr 1
  omega

/-- A written byte reads as its value, whatever the draws. -/
theorem State.byteAt_of_read {s : State} {k : Nat} {v : Byte} (h : Memory.read s.buf k = some v) : s.byteAt k = v := by
  simp [State.byteAt, h]

/-- A written position reads as its value, whatever the draws. -/
theorem State.bitAt_of_read {s : State} {sel : Sel} {p : Nat} {v : Bool}
    (h : Memory.read (s.bits sel) p = some v) : s.bitAt sel p = v := by
  simp [State.bitAt, h]

@[simp] theorem State.byteSeq_length (s : State) : s.byteSeq.length = s.bufLen.val := by simp [State.byteSeq]

@[simp] theorem State.bitString_length (s : State) (sel : Sel) : (s.bitString sel).length = (s.len sel).val := by
  simp [State.bitString]

@[simp] theorem State.bits_a (s : State) : s.bits .a = s.a := rfl
@[simp] theorem State.bits_b (s : State) : s.bits .b = s.b := rfl
@[simp] theorem State.len_a (s : State) : s.len .a = s.lenA := rfl
@[simp] theorem State.len_b (s : State) : s.len .b = s.lenB := rfl
@[simp] theorem Sel.other_other (sel : Sel) : sel.other.other = sel := by cases sel <;> rfl

end Sys2Proof.Machine
end

