-- ==== Sys2Proof/Laws/Commands.lean ====
section
/-! SUPPORT. What a command can do, said once: `exec_next` lists the states a command can lead to, with the register or the
stretch of a buffer it writes. -/

namespace Sys2Proof.Machine

theorem succeed_eq (s : State) : succeed s = .next (s.setErr .none) := rfl

theorem fail_eq (c : ErrCode) (s : State) : fail c s = .next (s.setErr c) := rfl

theorem exec_nop (s : State) : exec .nop s = .next (s.setErr .none) := rfl

theorem exec_f2c (s : State) : exec .f2c s = .next ((s.setRes (s.opa - Config.chanOffset)).setErr .none) := rfl

theorem exec_c2f (s : State) : exec .c2f s = .next ((s.setRes (s.opa + Config.chanOffset)).setErr .none) := rfl

theorem exec_crcInit (s : State) : exec .crcInit s = .next ((s.setCrc Config.crcInit).setErr .none) := rfl

theorem exec_xor_of_ne {s : State} (h : s.lenA ≠ s.lenB) (sel : Sel) :
    exec (.xor sel) s = .next (s.setErr .lengthMismatch) := by
  simp only [exec, execXor, if_pos h, fail_eq]

theorem exec_xor_of_eq {s : State} (h : s.lenA = s.lenB) (sel : Sel) :
    exec (.xor sel) s = .next (((s.setBits sel (Memory.fill (s.bits sel) 0
      (fun p => Bool.xor (s.bitAt .a p) (s.bitAt .b p)) s.lenA.val)).draw).setErr .none) := by
  simp only [exec, execXor, h, ne_eq, not_true_eq_false, if_false, succeed_eq]

theorem exec_crcStep_of_le {n : BitVec 4} (h : n ≤ maxBitCount) (data : Byte) (s : State) :
    exec (.crcStep data n) s = .next ((s.setCrc (crcStep s.crc data n.toNat)).setErr .none) := by
  simp only [exec, execCrcStep, if_pos h, succeed_eq]

theorem exec_crcStep_of_gt {n : BitVec 4} (h : ¬ n ≤ maxBitCount) (data : Byte) (s : State) :
    exec (.crcStep data n) s = .next (s.setErr .illegal) := by
  simp only [exec, execCrcStep, if_neg h, fail_eq]

theorem exec_crcPkt_of_empty {s : State} (h : s.bufLen.val = 0) :
    exec .crcPkt s = .next (s.setErr .invalidInput) := by
  simp only [exec, execCrcPkt, if_pos h, fail_eq]

theorem exec_crcPkt_of_bytes {s : State} (h : s.bufLen.val ≠ 0) :
    exec .crcPkt s = .next (((s.setCrc (calcCrc s.byteSeq)).draw).setErr .none) := by
  simp only [exec, execCrcPkt, if_neg h, succeed_eq]

/-- Every state a command can lead to. -/
theorem exec_next {i : Instr} {s t : State} (h : exec i s = .next t) :
    (i = .nop ∧ t = s.setErr .none) ∨
    ((i = .f2c ∨ i = .c2f) ∧ ∃ v, t = (s.setRes v).setErr .none) ∨
    (∃ sel n, i = .b2s sel ∧ n.val = 8 * s.bufLen.val ∧
      t = (((s.setBits sel (Memory.fill (s.bits sel) 0 s.codecBit n.val)).setLen sel n).draw).setErr .none) ∨
    (∃ sel n, i = .s2b sel ∧ n.val = bytesFor (s.len sel).val ∧
      t = (((s.setBuf (Memory.fill s.buf 0 (s.codecByte sel) n.val)).setBufLen n).draw).setErr .none) ∨
    (∃ sel, i = .xor sel ∧ s.lenA ≠ s.lenB ∧ t = s.setErr .lengthMismatch) ∨
    (∃ sel, i = .xor sel ∧ s.lenA = s.lenB ∧
      t = ((s.setBits sel (Memory.fill (s.bits sel) 0
        (fun p => Bool.xor (s.bitAt .a p) (s.bitAt .b p)) s.lenA.val)).draw).setErr .none) ∨
    ((i = .crcInit ∨ ∃ d n, i = .crcStep d n ∧ n ≤ maxBitCount) ∧ ∃ v, t = (s.setCrc v).setErr .none) ∨
    (∃ d n, i = .crcStep d n ∧ ¬ n ≤ maxBitCount ∧ t = s.setErr .illegal) ∨
    (i = .crcPkt ∧ s.bufLen.val = 0 ∧ t = s.setErr .invalidInput) ∨
    (i = .crcPkt ∧ s.bufLen.val ≠ 0 ∧ t = ((s.setCrc (calcCrc s.byteSeq)).draw).setErr .none) := by
  cases i with
  | nop => cases h; exact .inl ⟨rfl, rfl⟩
  | f2c => cases h; exact .inr (.inl ⟨.inl rfl, _, rfl⟩)
  | c2f => cases h; exact .inr (.inl ⟨.inr rfl, _, rfl⟩)
  | b2s sel => cases h; exact .inr (.inr (.inl ⟨sel, ⟨_, _⟩, rfl, rfl, rfl⟩))
  | s2b sel => cases h; exact .inr (.inr (.inr (.inl ⟨sel, ⟨_, _⟩, rfl, rfl, rfl⟩)))
  | xor sel =>
    by_cases hl : s.lenA = s.lenB
    · rw [exec_xor_of_eq hl] at h
      cases h
      exact .inr (.inr (.inr (.inr (.inr (.inl ⟨sel, rfl, hl, rfl⟩)))))
    · rw [exec_xor_of_ne hl] at h
      cases h
      exact .inr (.inr (.inr (.inr (.inl ⟨sel, rfl, hl, rfl⟩))))
  | crcInit => cases h; exact .inr (.inr (.inr (.inr (.inr (.inr (.inl ⟨.inl rfl, _, rfl⟩))))))
  | crcStep d n =>
    by_cases hn : n ≤ maxBitCount
    · rw [exec_crcStep_of_le hn] at h
      cases h
      exact .inr (.inr (.inr (.inr (.inr (.inr (.inl ⟨.inr ⟨d, n, rfl, hn⟩, _, rfl⟩))))))
    · rw [exec_crcStep_of_gt hn] at h
      cases h
      exact .inr (.inr (.inr (.inr (.inr (.inr (.inr (.inl ⟨d, n, rfl, hn, rfl⟩)))))))
  | crcPkt =>
    by_cases hl : s.bufLen.val = 0
    · rw [exec_crcPkt_of_empty hl] at h
      cases h
      exact .inr (.inr (.inr (.inr (.inr (.inr (.inr (.inr (.inl ⟨rfl, hl, rfl⟩))))))))
    · rw [exec_crcPkt_of_bytes hl] at h
      cases h
      exact .inr (.inr (.inr (.inr (.inr (.inr (.inr (.inr (.inr ⟨rfl, hl, rfl⟩))))))))

end Sys2Proof.Machine
end

