-- ==== Sys2Proof/Laws/Bus.lean ====
section
/-! SUPPORT. What the shared operations of the bus can do, said once: how a command ends, what a served event leads to, and
which event is taken. -/

namespace Sys2Proof.Machine

/-- A command word executes as the command it decodes to. -/
theorem execute_of_instr {v : Word} {i : Instr} (h : decode v = .instr i) (s : State) : execute v s = exec i s := by
  rw [execute, h]

/-- An illegal word fails with `ILLEGAL`. -/
theorem execute_of_illegal {v : Word} {w : Illegal} (h : decode v = .illegal w) (s : State) :
    execute v s = .next (s.setErr .illegal) := by
  rw [execute, h]; rfl

/-- A length write takes the value, or rejects it with `RANGE`. -/
theorem writeBufLen_cases (v : Word) (s : State) :
    (v.toNat ≤ 64 ∧ ∃ n : Fin 65, n.val = v.toNat ∧ writeBufLen v s = s.setBufLen n) ∨
    (64 < v.toNat ∧ writeBufLen v s = s.setErr .range) := by
  unfold writeBufLen
  split
  · rename_i h; exact .inl ⟨h, _, rfl, rfl⟩
  · rename_i h; exact .inr ⟨by omega, rfl⟩

/-- A length write takes the value, or rejects it with `RANGE`. -/
theorem writeLen_cases (sel : Sel) (v : Word) (s : State) :
    (v.toNat ≤ 512 ∧ ∃ n : Fin 513, n.val = v.toNat ∧ writeLen sel v s = s.setLen sel n) ∨
    (512 < v.toNat ∧ writeLen sel v s = s.setErr .range) := by
  unfold writeLen
  split
  · rename_i h; exact .inl ⟨h, _, rfl, rfl⟩
  · rename_i h; exact .inr ⟨by omega, rfl⟩

/-- What a byte holds after a write of the BUF window word `k` (R36). -/
theorem read_writeBufWord (s : State) (k : Nat) (v : Word) (q : Nat) :
    Memory.read (writeBufWord k v s).buf q =
      if 4 * k ≤ q ∧ q < 4 * k + 4 then some (lane v (q - 4 * k)) else Memory.read s.buf q := by
  rw [writeBufWord, State.setBuf_buf, Memory.read_fill]

/-- What a position holds after a write of the window word `k` of its buffer (R37). -/
theorem read_writeBitWord (s : State) (sel : Sel) (k : Nat) (v : Word) (p : Nat) :
    Memory.read ((writeBitWord sel k v s).bits sel) p =
      if 32 * k ≤ p ∧ p < 32 * k + 32 then some (wordBit v (p - 32 * k)) else Memory.read (s.bits sel) p := by
  rw [writeBitWord, State.setBits_bits_same, Memory.read_fill]

/-- Every state a write can lead to. -/
theorem memWrite_next {off : Offset} {v : Word} {s t : State} (h : memWrite off v s = .next t) :
    (target off = .cmd ∧ execute v s = .next t) ∨
    ((target off = .status ∨ target off = .res ∨ target off = .reserved) ∧ t = s) ∨
    (target off = .crc ∧ t = s.setCrc (v.setWidth 16)) ∨
    (target off = .opa ∧ t = s.setOpa v) ∨
    (target off = .bufLen ∧ ((∃ n, t = s.setBufLen n) ∨ t = s.setErr .range)) ∨
    (∃ sel, target off = .len sel ∧ ((∃ n, t = s.setLen sel n) ∨ t = s.setErr .range)) ∨
    (∃ k : Fin 16, target off = .bufWindow k ∧ t = s.setBuf (Memory.fill s.buf (4 * k.val) (lane v) 4)) ∨
    (∃ sel, ∃ k : Fin 16, target off = .bitWindow sel k ∧
      t = s.setBits sel (Memory.fill (s.bits sel) (32 * k.val) (wordBit v) 32)) := by
  unfold memWrite at h
  cases ht : target off with
  | cmd => exact .inl ⟨rfl, by simpa [ht, writeTarget] using h⟩
  | status => rw [ht] at h; cases h; exact .inr (.inl ⟨.inl rfl, rfl⟩)
  | crc => rw [ht] at h; cases h; exact .inr (.inr (.inl ⟨rfl, rfl⟩))
  | opa => rw [ht] at h; cases h; exact .inr (.inr (.inr (.inl ⟨rfl, rfl⟩)))
  | res => rw [ht] at h; cases h; exact .inr (.inl ⟨.inr (.inl rfl), rfl⟩)
  | bufLen =>
    rw [ht] at h
    cases h
    refine .inr (.inr (.inr (.inr (.inl ⟨rfl, ?_⟩))))
    rcases writeBufLen_cases v s with ⟨-, n, -, e⟩ | ⟨-, e⟩
    · exact .inl ⟨n, e⟩
    · exact .inr e
  | len sel =>
    rw [ht] at h
    cases h
    refine .inr (.inr (.inr (.inr (.inr (.inl ⟨sel, rfl, ?_⟩)))))
    rcases writeLen_cases sel v s with ⟨-, n, -, e⟩ | ⟨-, e⟩
    · exact .inl ⟨n, e⟩
    · exact .inr e
  | bufWindow k => rw [ht] at h; cases h; exact .inr (.inr (.inr (.inr (.inr (.inr (.inl ⟨k, rfl, rfl⟩))))))
  | bitWindow sel k =>
    rw [ht] at h; cases h; exact .inr (.inr (.inr (.inr (.inr (.inr (.inr ⟨sel, k, rfl, rfl⟩))))))
  | reserved => rw [ht] at h; cases h; exact .inr (.inl ⟨.inr (.inr rfl), rfl⟩)

/-- A write that is answered went on, and the answer is recorded after its effect. -/
theorem answerWrite_next {master : Nat} {o : Out} {t : State} (h : answerWrite master o = .next t) :
    ∃ u, o = .next u ∧ t = u.reply master .done := by
  cases o with
  | next u => simp only [answerWrite, Host.Outcome.next.injEq] at h; exact ⟨u, rfl, h.symm⟩
  | fault r => cases h
  | refused r => cases h

/-- Taking an event removes the head of that agent's list and nothing else. -/
theorem takeFrom_some {j : Nat} {q q' : List (List BusEvent)} {e : BusEvent} (h : takeFrom j q = some (e, q')) :
    ∃ es, q[j]? = some (e :: es) ∧ q' = q.set j es := by
  induction j generalizing q q' with
  | zero =>
    match q, h with
    | (e' :: es) :: rest, h =>
      simp only [takeFrom, Option.some.injEq, Prod.mk.injEq] at h
      obtain ⟨rfl, rfl⟩ := h
      exact ⟨es, rfl, rfl⟩
  | succ j ih =>
    match q, h with
    | es' :: rest, h =>
      simp only [takeFrom, Option.map_eq_some_iff, Prod.mk.injEq] at h
      obtain ⟨⟨e', q''⟩, h1, rfl, rfl⟩ := h
      obtain ⟨es, h2, h3⟩ := ih h1
      exact ⟨es, by simpa using h2, by simp [h3]⟩

/-- The event a step serves is the oldest of the agent it names, and taking it changes the waiting events and the draws
alone. -/
theorem nextEvent_some {s s' : State} {j : Nat} {e : BusEvent} (h : nextEvent s = some (j, e, s')) :
    ∃ es, s.streams[j]? = some (e :: es) ∧
      s' = { s with streams := s.streams.set j es, draws := s.draws + 1 } := by
  simp only [nextEvent, Option.bind_eq_some_iff, Option.map_eq_some_iff, Prod.mk.injEq] at h
  obtain ⟨j', -, ⟨e', q⟩, h1, rfl, rfl, rfl⟩ := h
  obtain ⟨es, h2, h3⟩ := takeFrom_some h1
  exact ⟨es, h2, by simp [h3]⟩

/-- Serving an event that goes on: an edge of the reset input, an access met by reset, a read, or a completed write. -/
theorem serve_next {master : Nat} {e : BusEvent} {s t : State} (h : serve master e s = .next t) :
    (e = .assertReset ∧ t = s.assertReset) ∨
    (e = .releaseReset ∧ t = s.releaseReset) ∨
    (s.inReset = true ∧ t = s.reply master .notAccepted) ∨
    (∃ w off, e = .read w off ∧ s.inReset = false ∧ accepts w off = true ∧
      t = s.reply master (.data (memRead off s))) ∨
    (∃ w off v u, e = .write w off v ∧ s.inReset = false ∧ accepts w off = true ∧
      memWrite off v s = .next u ∧ t = u.reply master .done) := by
  cases e with
  | assertReset => exact .inl ⟨rfl, by simpa [serve] using h.symm⟩
  | releaseReset => exact .inr (.inl ⟨rfl, by simpa [serve] using h.symm⟩)
  | read w off =>
    simp only [serve] at h
    split at h
    · rename_i hr; exact .inr (.inr (.inl ⟨hr, by simpa using h.symm⟩))
    · rename_i hr
      split at h
      · rename_i ha
        exact .inr (.inr (.inr (.inl ⟨w, off, rfl, by simpa using hr, ha, by simpa using h.symm⟩)))
      · cases h
  | write w off v =>
    simp only [serve] at h
    split at h
    · rename_i hr; exact .inr (.inr (.inl ⟨hr, by simpa using h.symm⟩))
    · rename_i hr
      split at h
      · rename_i ha
        obtain ⟨u, hu, ht⟩ := answerWrite_next h
        exact .inr (.inr (.inr (.inr ⟨w, off, v, u, rfl, by simpa using hr, ha, hu, ht⟩)))
      · cases h

/-- A step that goes on: nothing waits and nothing changes, or the event taken is served. -/
theorem step_next {s t : State} (h : step s = .next t) :
    (nextEvent s = none ∧ t = s) ∨ ∃ j e s', nextEvent s = some (j, e, s') ∧ serve j e s' = .next t := by
  unfold step serveNext at h
  split at h
  · rename_i hn; exact .inl ⟨hn, by simpa using h.symm⟩
  · rename_i j e s' hn; exact .inr ⟨j, e, s', hn, h⟩

end Sys2Proof.Machine
end

