-- ==== Sys2Proof/Laws/PerInstr.lean ====
section
/-! SUPPORT. A fact about every instruction as a word, one lemma per constructor: its encoding leaves the reserved bits 0. -/

namespace Sys2Proof.Laws.ReservedBitsZero

/-- The encoding of an instruction has bits 31..24, 15..12 and 7..5 zero (R62). -/
def Statement (i : Instr) : Prop := encode i &&& reservedMask = 0#32

theorem nop : Statement .nop := by unfold Statement; decide
theorem f2c : Statement .f2c := by unfold Statement; decide
theorem c2f : Statement .c2f := by unfold Statement; decide
theorem b2s (sel : Sel) : Statement (.b2s sel) := by cases sel <;> (unfold Statement; decide)
theorem s2b (sel : Sel) : Statement (.s2b sel) := by cases sel <;> (unfold Statement; decide)
theorem xor (sel : Sel) : Statement (.xor sel) := by cases sel <;> (unfold Statement; decide)
theorem crcInit : Statement .crcInit := by unfold Statement; decide

theorem crcStep (data : Byte) (n : BitVec 4) : Statement (.crcStep data n) := by
  unfold Statement encode commandWord reservedMask
  apply BitVec.eq_of_getLsbD_eq
  intro i hi
  simp only [BitVec.getLsbD_and, BitVec.getLsbD_append, BitVec.getLsbD_zero]
  interval_cases i <;> simp [BitVec.getLsbD] <;> intros <;> decide

theorem crcPkt : Statement .crcPkt := by unfold Statement; decide

end Sys2Proof.Laws.ReservedBitsZero
end

