-- ==== Sys2Proof/Tests/Slice0.lean ====
section
/-! SUPPORT. The model's own tests: the ill-formed term, the words of rule R57 and of 95_test_vectors.md, one step of every
command, the bus, and a witness for every statement that has hypotheses. Expected values are the spec's. -/

namespace Sys2Proof.Tests

open Sys2Proof.Machine

/-- What an outcome's next state shows, none where it stopped. -/
def shows {α : Type} (o : Out) (f : State → α) : Option α :=
  match o with
  | .next t => some (f t)
  | .fault _ => none
  | .refused _ => none

/-- The address of a bus error, none where there was none. -/
def busErrorAt (o : Out) : Option Offset :=
  match o with
  | .fault (.busError off) => some off
  | .next _ => none
  | .refused _ => none

/-- From reset, `BUF` holds the bytes and `BUF_LEN` their number. -/
def withBytes (bytes : List Byte) : State :=
  { State.reset with buf := bytes.zipIdx.map (fun p => (p.2, p.1)), bufLen := Fin.ofNat 65 bytes.length }

/-- The positions of a word as a window write lists them, from position `start`. -/
def positions (v : Word) : List (Nat × Bool) := (List.range 32).map (fun j => (j, v.getLsbD (31 - j)))

/-- From reset, window word 0 of `A` and of `B` is written and both strings have length `L`. -/
def withWords (va vb : Word) (L : Nat) : State :=
  { State.reset with a := positions va, b := positions vb, lenA := Fin.ofNat 513 L, lenB := Fin.ofNat 513 L }

/-! WellFormed: the one check refuses its ill-formed term. -/

theorem test_illformed_count : WellFormed (.crcStep 0x00#8 9#4) = false := by decide
theorem test_wellformed_count_8 : WellFormed (.crcStep 0xE8#8 8#4) = true := by decide

/-! Decoding: one word of every constructor, written out from R57 and R58; illegal words (V-ENC). -/

theorem test_decode_nop : decode 0b00000000000000000000000000000000#32 = .instr .nop := by decide
theorem test_decode_f2c : decode 0b00000000000000000000000000000001#32 = .instr .f2c := by decide
theorem test_decode_c2f : decode 0b00000000000000000000000000000010#32 = .instr .c2f := by decide
theorem test_decode_b2s : decode 0b00000000000000000000000000010011#32 = .instr (.b2s .b) := by decide
theorem test_decode_s2b : decode 0b00000000000000000000000000000100#32 = .instr (.s2b .a) := by decide
theorem test_decode_xor : decode 0b00000000000000000000000000010101#32 = .instr (.xor .b) := by decide
theorem test_decode_crcInit : decode 0b00000000000000000000000000000110#32 = .instr .crcInit := by decide
theorem test_decode_crcStep :
    decode 0b00000000111010000000100000000111#32 = .instr (.crcStep 0xE8#8 8#4) := by decide
theorem test_decode_crcPkt : decode 0b00000000000000000000000000001000#32 = .instr .crcPkt := by decide
theorem test_decode_count_9 : decode 0x00000907#32 = .illegal .countOver8 := by decide
theorem test_decode_opcode_9 : decode 0x00000009#32 = .illegal .reservedOpcode := by decide
theorem test_decode_sel_on_step : decode 0x00000017#32 = .illegal .unusedField := by decide
theorem test_decode_bit_24 : decode 0x01000001#32 = .illegal .reservedBit := by decide
theorem test_encode_step : encode (.crcStep 0xAB#8 0#4) = 0x00AB0007#32 := by decide
theorem test_table_word : decodeTableWord 32 0x00E80807 = some (.crcStep 0xE8#8 8#4) := by decide

/-! One step of every command. -/

/-- V-MAP-4: the subtraction wraps. -/
theorem test_f2c_wraps :
    shows (exec .f2c { State.reset with opa := 0x80000000#32 }) (·.res) = some 0x7FFFF6A0#32 := by decide
/-- W2. -/
theorem test_f2c_2420 : shows (exec .f2c { State.reset with opa := 2420#32 }) (·.res) = some 20#32 := by decide
/-- V-MAP-7: the addition wraps. -/
theorem test_c2f_wraps :
    shows (exec .c2f { State.reset with opa := 0x7FFFFFFF#32 }) (·.res) = some 0x8000095F#32 := by decide
/-- W6. -/
theorem test_b2s_w6 :
    shows (exec (.b2s .a) (withBytes [0x01#8, 0x02#8, 0x03#8, 0xFF#8])) (fun t => (bitWord t .a 0, t.lenA.val)) =
      some (0x010203FF#32, 32) := by decide
/-- V-COD-3: the empty sequence writes no position. -/
theorem test_b2s_empty :
    shows (exec (.b2s .b) State.reset) (fun t => (t.b, t.lenB.val)) = some ([], 0) := by decide
/-- V-COD-7: the pad bits are 0, not the stored ones. -/
theorem test_s2b_pads :
    shows (exec (.s2b .a) (withWords 0xBFFFFFFF#32 0#32 3)) (fun t => (t.buf, t.bufLen.val)) =
      some ([(0, 0xA0#8)], 1) := by decide
/-- V-COD-8. -/
theorem test_s2b_nine :
    shows (exec (.s2b .a) (withWords 0xFF800000#32 0#32 9)) (fun t => (t.buf, t.bufLen.val)) =
      some ([(0, 0xFF#8), (1, 0x80#8)], 2) := by decide
/-- V-XOR-5: positions past the length stay. -/
theorem test_xor_short :
    shows (exec (.xor .a) (withWords 0xFFFFFFFF#32 0#32 5)) (fun t => bitWord t .a 0) = some 0xFFFFFFFF#32 := by decide
/-- V-XOR-2: the result goes to `B`, `A` stays. -/
theorem test_xor_b :
    shows (exec (.xor .b) (withWords 0xCF000000#32 0xAA000000#32 8)) (fun t => (bitWord t .b 0, bitWord t .a 0)) =
      some (0x65000000#32, 0xCF000000#32) := by decide
/-- V-CRC-1. -/
theorem test_crcInit : shows (exec .crcInit { State.reset with crc := 0x1234#16 }) (·.crc) = some 0xFFFF#16 := by decide
/-- V-CRC-2. -/
theorem test_crcStep_e8 : shows (exec (.crcStep 0xE8#8 8#4) State.reset) (·.crc) = some 0x9DD6#16 := by decide
/-- V-CRC-3: a count of 0 only XORs the byte in. -/
theorem test_crcStep_0 :
    shows (exec (.crcStep 0xAB#8 0#4) { State.reset with crc := 0x1234#16 }) (·.crc) = some 0xB934#16 := by decide
/-- V-CRC-19. -/
theorem test_crcPkt_two : shows (exec .crcPkt (withBytes [0x41#8, 0x42#8])) (·.crc) = some 0xE60B#16 := by decide
/-- W1, the source's worked example, its last two bytes from the register the table gives after byte 15. -/
theorem test_crc_w1_end : crcBytes 0x61EA#16 [0x49#8, 0x00#8] = 0x9ED4#16 := by decide
/-- V-CRC-20. -/
theorem test_crcPkt_empty :
    shows (exec .crcPkt { State.reset with crc := 0x1234#16 }) (fun t => (t.crc, t.err)) =
      some (0x1234#16, .invalidInput) := by decide
/-- R86's example: `NOP` clears the code. -/
theorem test_nop_clears : shows (exec .nop { State.reset with err := .illegal }) (·.err) = some .none := by decide

/-! The bus. -/

/-- V-REG-3, the boundary above: 513 is rejected. -/
theorem test_len_513 :
    shows (memWrite 0x018#12 513#32 State.reset) (fun t => (t.lenA.val, t.err)) = some (0, .range) := by decide
/-- V-REG-4, the boundary: 512 is taken. -/
theorem test_len_512 : shows (memWrite 0x018#12 512#32 State.reset) (fun t => t.lenA.val) = some 512 := by decide
theorem test_bufLen_65 : shows (memWrite 0x014#12 65#32 State.reset) (·.err) = some .range := by decide
theorem test_bufLen_64 : shows (memWrite 0x014#12 64#32 State.reset) (·.bufLen.val) = some 64 := by decide
/-- The whole word is compared, not its low bits (R31). -/
theorem test_bufLen_high : shows (memWrite 0x014#12 0x80000001#32 State.reset) (·.err) = some .range := by decide
/-- V-REG-1. -/
theorem test_crc_write : shows (memWrite 0x008#12 0xABCD1234#32 State.reset) (·.crc) = some 0x1234#16 := by decide
/-- Program P2b's first window write: `BUF[0] = E8` in bits 31..24. -/
theorem test_buf_window :
    shows (memWrite 0x100#12 0xE846F92F#32 State.reset) (·.buf) =
      some [(0, 0xE8#8), (1, 0x46#8), (2, 0xF9#8), (3, 0x2F#8)] := by decide
theorem test_last_windows :
    target 0x13C#12 = .bufWindow 15 ∧ target 0x17C#12 = .bitWindow .a 15 ∧ target 0x1BC#12 = .bitWindow .b 15 ∧
    target 0x0FC#12 = .reserved ∧ target 0x1C0#12 = .reserved ∧ target 0xFFC#12 = .reserved := by decide
/-- V-REG-9 and V-REG-10. -/
theorem test_bus_errors :
    busErrorAt (serve 0 (.read .w32 0x002#12) State.reset) = some 0x002#12 ∧
    busErrorAt (serve 0 (.write .w32 0x101#12 1#32) State.reset) = some 0x101#12 ∧
    busErrorAt (serve 0 (.write .w16 0x000#12 6#32) State.reset) = some 0x000#12 := by decide
/-- A step runs a command presented to it and answers the write. -/
theorem test_step_runs :
    shows (step (State.reset.withFetchWord 32 0x00E80807)) (fun t => (t.crc, t.replies)) =
      some (0x9DD6#16, [⟨0, .done⟩]) := by decide
/-- With nothing presented a step changes nothing (R100). -/
theorem test_step_idle : shows (step State.reset) (fun t => decide (t = State.reset)) = some true := by decide
theorem test_assemble : (assemble (.crcLast 0)).map encode = some 0x00000107#32 := by decide

/-! Witnesses: for each statement with hypotheses, a state and operands that meet them together, at the boundaries of its
clauses. A theorem is named after the statement. -/

theorem wit_decodeOfEncode : WellFormed (.crcStep 0xFF#8 8#4) = true ∧ WellFormed (.xor .b) = true := by decide
theorem wit_decodedWord : decode 0x00FF0807#32 = .instr (.crcStep 0xFF#8 8#4) := by decide
theorem wit_matchMaskTable :
    9#4 ≤ BitVec.extractLsb' 0 4 0x00000009#32 ∧ 9#4 ≤ BitVec.extractLsb' 0 4 0x0000000F#32 := by decide
theorem wit_reservedBit :
    0x00000020#32 &&& 0xFF00F0E0#32 ≠ 0#32 ∧ 0x80000000#32 &&& 0xFF00F0E0#32 ≠ 0#32 ∧
    0x00008000#32 &&& 0xFF00F0E0#32 ≠ 0#32 := by decide
theorem wit_executeTable :
    (∃ r ∈ rows, r.hits 0x00000807#32 = true) ∧ (∀ r ∈ rows, r.hits 0x00000907#32 = false) ∧
    State.reset.inReset = false := by decide
theorem wit_assembler : "c" ≠ "a" ∧ "c" ≠ "b" ∧ 255 ≤ 255 ∧ 8 ≤ 8 ∧ (255 < 256 ∨ 8 < 8) ∧ (255 < 255 ∨ 8 < 9) := by decide
theorem wit_nop : BitVec.extractLsb' 0 4 0x00000010#32 = 0#4 ∧ 0x00000010#32 ≠ 0#32 := by decide
theorem wit_b2s : 3 < (withBytes [1#8, 2#8, 3#8, 4#8]).bufLen.val ∧ 8 * (withBytes [1#8, 2#8, 3#8, 4#8]).bufLen.val ≤ 32 := by
  decide
theorem wit_s2b :
    1 < (((withWords 0#32 0#32 9).len .a).val + 7) / 8 ∧ (((withWords 0#32 0#32 9).len .a).val + 7) / 8 ≤ 2 := by decide
theorem wit_xor :
    ({ State.reset with lenA := 8 } : State).lenA ≠ ({ State.reset with lenA := 8 } : State).lenB ∧
    (withWords 0#32 0#32 8).lenA = (withWords 0#32 0#32 8).lenB ∧ 7 < (withWords 0#32 0#32 8).lenA.val ∧
    (withWords 0#32 0#32 8).lenA.val ≤ 8 := by decide
theorem wit_crcInit : shows (exec .crcInit State.reset) (·.err) = some .none := by decide
theorem wit_crcStep : (8#4 ≤ 8#4) ∧ 8#4 < 9#4 := by decide
theorem wit_crcPkt : State.reset.bufLen.val = 0 ∧ (withBytes [0x80#8]).bufLen.val ≠ 0 := by decide
/-- The boundary counts 0 and 8 of `CRC_STEP`; packets of 1 and 64 bytes. -/
theorem wit_iterations :
    (0#4 ≤ 8#4 ∧ 8#4 ≤ 8#4) ∧ (withBytes [0x00#8]).bufLen.val ≠ 0 ∧
    ({ State.reset with bufLen := 64 } : State).bufLen.val ≠ 0 := by decide
/-- V-CRC-18's packet takes 8 + 1 iterations (R85). -/
theorem test_counted_two : calcCrcCounted [0x00#8, 0x00#8] = (0xD3C1#16, 9) := by decide
theorem wit_byteSequence : (withBytes [0x41#8, 0x42#8]).byteSeq = [0x41#8] ++ [0x42#8] := by decide
theorem wit_codec : ((withWords 0#32 0#32 8).len .a).val % 8 = 0 := by decide
theorem wit_xorLaws :
    (withWords 0x12345678#32 0x12345678#32 8).lenA = (withWords 0x12345678#32 0x12345678#32 8).lenB ∧
    (withWords 0x12345678#32 0x12345678#32 8).bitString .a = (withWords 0x12345678#32 0x12345678#32 8).bitString .b ∧
    (∀ p, p < (withWords 0x12345678#32 0x12345678#32 8).lenB.val →
      (Memory.read (withWords 0x12345678#32 0x12345678#32 8).b p).isSome = true) := by decide
theorem wit_failure :
    execute 0x00000009#32 State.reset = .next { State.reset with err := .illegal } ∧
    shows (execute 0x00000001#32 State.reset) (·.err) = some .none := ⟨rfl, by decide⟩
theorem wit_errAfter :
    (∃ t, exec (.xor .a) { State.reset with lenA := 8 } = .next t ∧ t.err = .lengthMismatch) ∧
    (∃ t, exec .crcPkt State.reset = .next t ∧ t.err = .invalidInput) ∧
    (∃ t, exec (.crcStep 0#8 9#4) State.reset = .next t ∧ t.err = .illegal) :=
  ⟨⟨_, rfl, rfl⟩, ⟨_, rfl, rfl⟩, ⟨_, rfl, rfl⟩⟩
theorem wit_outside : ∃ t, exec (.b2s .a) State.reset = .next t := ⟨_, rfl⟩
theorem wit_opa : (∃ t, exec .f2c State.reset = .next t) ∧
    (0x008#12 ≠ 0x00C#12 ∧ ∃ t, memWrite 0x008#12 1#32 State.reset = .next t) := ⟨⟨_, rfl⟩, by decide, ⟨_, rfl⟩⟩
theorem wit_res : (∃ t, exec .f2c State.reset = .next t ∧ t.res ≠ State.reset.res) ∧
    (0x010#12 ≠ 0x000#12 ∧ ∃ t, memWrite 0x010#12 5#32 State.reset = .next t) :=
  ⟨⟨_, rfl, by decide⟩, by decide, ⟨_, rfl⟩⟩
theorem wit_crcAccess :
    (∃ t, exec (.crcStep 0xE8#8 8#4) State.reset = .next t ∧ t.crc ≠ State.reset.crc) ∧
    (0x00C#12 ≠ 0x000#12 ∧ 0x00C#12 ≠ 0x008#12 ∧ ∃ t, memWrite 0x00C#12 5#32 State.reset = .next t) ∧
    (withBytes [0x00#8]).bufLen.val ≠ 0 := ⟨⟨_, rfl, by decide⟩, ⟨by decide, by decide, ⟨_, rfl⟩⟩, by decide⟩
theorem wit_pastLength : ∃ t, exec (.b2s .a) (withBytes [0x80#8]) = .next t ∧ (t.len .a).val ≤ 8 :=
  ⟨_, rfl, by decide⟩
theorem wit_s2bIgnores : ∀ p, p < ((withWords 0xA0000000#32 0#32 3).len .a).val →
    Memory.read (positions 0xBFFFFFFF#32) p = Memory.read ((withWords 0xA0000000#32 0#32 3).bits .a) p := by decide
/-- One state for each form: the storage a command does not read is unwritten (`A` and `B` for `B2S`, all bytes for `XOR`), or
the lengths differ and nothing is read. -/
theorem wit_written :
    ReadsOnlyWritten (.b2s .a) { withBytes [0x80#8] with lenA := 8, lenB := 8 } ∧
    ReadsOnlyWritten .crcPkt { withBytes [0x80#8] with lenA := 8 } ∧
    ReadsOnlyWritten (.s2b .a) { State.reset with a := positions 0#32, lenA := 9, lenB := 9, bufLen := 1 } ∧
    ReadsOnlyWritten (.xor .b) { withWords 0#32 0#32 8 with bufLen := 4 } ∧
    ReadsOnlyWritten (.xor .a) { State.reset with lenA := 8 } ∧
    ReadsOnlyWritten .nop { State.reset with lenA := 8, bufLen := 4 } := by
  refine ⟨?_, ?_, ?_, ?_, ?_, ?_⟩ <;> (unfold ReadsOnlyWritten; decide)
theorem wit_accepted : State.reset.inReset = false ∧ BitVec.toNat 0x1BC#12 % 4 = 0 ∧ ¬ BitVec.toNat 0x002#12 % 4 = 0 := by
  decide
theorem wit_registerMap :
    BitVec.toNat 0x020#12 % 4 = 0 ∧ BitVec.toNat 0x0FC#12 < 0x100 ∧ 0x1C0 ≤ BitVec.toNat 0x1C0#12 ∧
    BitVec.toNat 0xFFC#12 ≤ 0xFFC ∧ BitVec.toNat 0xFFC#12 % 4 = 0 := by decide
/-- A served write meets the last clause of the write map: a window's last word, a length write and a bus error beside it. -/
theorem wit_servedWrite :
    BitVec.toNat 0x1BC#12 % 4 = 0 ∧ State.reset.inReset = false ∧
    (∃ t, memWrite 0x1BC#12 0xFFFFFFFF#32 State.reset = .next t) ∧ (∃ t, memWrite 0x014#12 65#32 State.reset = .next t) ∧
    BitVec.toNat 0x1BD#12 % 4 ≠ 0 := ⟨by decide, rfl, ⟨_, rfl⟩, ⟨_, rfl⟩, by decide⟩
/-- A host's write of `CRC` is served with its effect (V-REG-1). -/
theorem test_served_crc_write :
    shows (serve 0 (.write .w32 0x008#12 0xABCD1234#32) State.reset) (fun t => (t.crc, t.replies)) =
      some (0x1234#16, [⟨0, .done⟩]) := by decide
theorem wit_lengthWrites :
    BitVec.toNat 64#32 ≤ 64 ∧ 64 < BitVec.toNat 65#32 ∧ BitVec.toNat 512#32 ≤ 512 ∧ 512 < BitVec.toNat 513#32 := by decide
theorem wit_readOnly : (0x004#12 = 0x004#12 ∨ 0x004#12 = 0x010#12) ∧ State.reset.inReset = false := by decide
theorem wit_status : 4 ≤ 4 ∧ 4 ≤ 31 := by decide
/-- The first and the last window word; the bytes on both sides of word 1 are outside it. -/
theorem wit_bufWindow : 0 < 16 ∧ 15 < 16 ∧ 3 < 4 * 1 ∧ 4 * 1 + 4 ≤ 8 := by decide
theorem wit_bitWindows : BitVec.toNat 0x17C#12 = 0x140 + 4 * 15 ∧ BitVec.toNat 0x180#12 = 0x180 + 4 * 0 := by decide
theorem wit_windowWords : 4 * 0 + 4 ≤ (withBytes [1#8, 2#8, 3#8, 4#8]).bufLen.val := by decide
theorem wit_stable :
    target 0x100#12 = .bufWindow 0 ∧ target 0x140#12 = .bitWindow .a 0 ∧
    (∀ i, i < 4 → (Memory.read (withBytes [1#8, 2#8, 3#8, 4#8]).buf (4 * 0 + i)).isSome = true) ∧
    (∀ j, j < 32 → (Memory.read (withWords 0#32 0#32 8).a (32 * 0 + j)).isSome = true) := by decide
theorem wit_aperture : apertureOffset (Config.base + 0xFFC) = some 0xFFC#12 ∧ Config.base + 4096 ≤ Config.base + 4096 := by
  refine ⟨?_, Nat.le_refl _⟩
  rw [apertureOffset, if_pos ⟨Nat.le_add_right _ _, Nat.add_lt_add_left (by decide) _⟩, Nat.add_sub_cancel_left]
theorem wit_stepRuns :
    (nextEvent (State.reset.withFetchWord 32 8)).map (fun p => (p.1, p.2.1, p.2.2.inReset)) =
      some (0, cmdWrite 8#32, false) ∧
    decode 8#32 = .instr .crcPkt ∧ decodeTableWord 32 8 = some .crcPkt := by decide
theorem wit_stepServes :
    (∀ q ∈ State.reset.streams, q = []) ∧ (∃ q ∈ (State.reset.withFetchWord 32 0).streams, q ≠ []) := by decide
theorem wit_invariant :
    (withBytes [0xCF#8]).Inv ∧ (withWords 0xFF000000#32 0x0F000000#32 8).Inv ∧
    ∃ t, step ((withBytes [0xCF#8]).withFetchWord 32 3) = .next t := ⟨by decide, by decide, ⟨_, rfl⟩⟩
theorem wit_duty : ({ State.reset with streams := [[cmdWrite 8#32, .read .w32 0x008#12], [.assertReset]] } : State).DutyKept := by
  decide

end Sys2Proof.Tests
end

section
/-! The register map and the port, said once for every register (R30, R43, R48, R49): which offset reaches which target,
what a served access comes to, and which command or write can change `OPA` or `CRC`. -/

namespace Sys2Proof.Machine

/-! The register map -/

/-- What a register's offset reaches, by the register's name. -/
def RegName.target : RegName → Target
  | .cmd => .cmd
  | .status => .status
  | .crc => .crc
  | .opa => .opa
  | .res => .res
  | .bufLen => .bufLen
  | .lenA => .len .a
  | .lenB => .len .b

theorem target_offset (r : RegName) : target r.offset = r.target := by
  cases r <;> rfl

/-- No other offset reaches a register. -/
theorem target_eq_register_iff {off : Offset} {r : RegName} : target off = r.target ↔ off = r.offset := by
  refine ⟨fun h => BitVec.eq_of_toNat_eq ?_, fun h => h ▸ target_offset r⟩
  revert h
  fun_cases target off
  all_goals
    intro h
    cases r <;> cases h <;> assumption

/-- R38: the two ranges of offsets that reach nothing. -/
theorem target_of_reserved {off : Offset}
    (h : 0x020 ≤ off.toNat ∧ off.toNat < 0x100 ∨ 0x1C0 ≤ off.toNat) : target off = .reserved := by
  fun_cases target off
  case case12 => rfl
  all_goals exfalso; omega

theorem memRead_register (r : RegName) (s : State) : memRead r.offset s = readTarget s r.target := by
  rw [memRead, target_offset]

theorem memWrite_register (r : RegName) (v : Word) (s : State) :
    memWrite r.offset v s = writeTarget v s r.target := by
  rw [memWrite, target_offset]

/-! Serving an accepted access -/

theorem accepts_of_aligned {off : Offset} (h : off.toNat % 4 = 0) : accepts .w32 off = true := by
  simp [accepts, h]

/-- An accepted read is answered with its value (R48). -/
theorem serve_read {off : Offset} {s : State} (ha : off.toNat % 4 = 0) (hr : s.inReset = false) (master : Nat) :
    serve master (.read .w32 off) s = .next (s.reply master (.data (memRead off s))) := by
  simp [serve, hr, accepts_of_aligned ha]

/-- An accepted write that completes is answered as done after its effect (R49). -/
theorem serve_write {off : Offset} {v : Word} {s t : State} (ha : off.toNat % 4 = 0) (hr : s.inReset = false)
    (h : memWrite off v s = .next t) (master : Nat) :
    serve master (.write .w32 off v) s = .next (t.reply master .done) := by
  simp [serve, hr, accepts_of_aligned ha, h, answerWrite]

/-! What changes OPA and CRC -/

/-- A `CMD` write that goes on ran the command of its word, or the word was illegal. -/
theorem execute_next {v : Word} {s t : State} (h : execute v s = .next t) :
    (∃ i, decode v = .instr i ∧ exec i s = .next t) ∨ t = s.setErr .illegal := by
  cases hd : decode v with
  | instr i => exact .inl ⟨i, rfl, execute_of_instr hd s ▸ h⟩
  | illegal w => rw [execute_of_illegal hd] at h; cases h; exact .inr rfl

theorem exec_opa {i : Instr} {s t : State} (h : exec i s = .next t) : t.opa = s.opa := by
  rcases exec_next h with ⟨-, rfl⟩ | ⟨-, v, rfl⟩ | ⟨sel, n, -, -, rfl⟩ | ⟨sel, n, -, -, rfl⟩ | ⟨sel, -, -, rfl⟩ |
    ⟨sel, -, -, rfl⟩ | ⟨-, v, rfl⟩ | ⟨d, n, -, -, rfl⟩ | ⟨-, -, rfl⟩ | ⟨-, -, rfl⟩ <;> simp

theorem execute_opa {v : Word} {s t : State} (h : execute v s = .next t) : t.opa = s.opa := by
  rcases execute_next h with ⟨i, -, hi⟩ | rfl
  · exact exec_opa hi
  · rfl

/-- A write at another offset leaves `OPA`, even one that runs a command. -/
theorem memWrite_opa {off : Offset} {v : Word} {s t : State} (hoff : off ≠ RegName.opa.offset)
    (h : memWrite off v s = .next t) : t.opa = s.opa := by
  rcases memWrite_next h with ⟨-, h⟩ | ⟨-, rfl⟩ | ⟨-, rfl⟩ | ⟨ht, -⟩ | ⟨-, ⟨n, rfl⟩ | rfl⟩ |
    ⟨sel, -, ⟨n, rfl⟩ | rfl⟩ | ⟨k, -, rfl⟩ | ⟨sel, k, -, rfl⟩
  -- the cases that need a reason: a write of `OPA` itself, and a command
  on_goal 4 => exact absurd (target_eq_register_iff.1 ht) hoff
  on_goal 1 => exact execute_opa h
  all_goals simp

/-- The commands that may change `CRC` (R22); a count above 8 fails and leaves it (R82). -/
theorem exec_crc {i : Instr} {s t : State} (h : exec i s = .next t) :
    t.crc = s.crc ∨ i = .crcInit ∨ i = .crcPkt ∨ ∃ d n, i = .crcStep d n ∧ n ≤ maxBitCount := by
  rcases exec_next h with ⟨-, rfl⟩ | ⟨-, v, rfl⟩ | ⟨sel, n, -, -, rfl⟩ | ⟨sel, n, -, -, rfl⟩ | ⟨sel, -, -, rfl⟩ |
    ⟨sel, -, -, rfl⟩ | ⟨hi | hi, v, rfl⟩ | ⟨d, n, -, -, rfl⟩ | ⟨-, -, rfl⟩ | ⟨hi, -, rfl⟩
  -- the three commands that set `CRC`, last to first; every other case leaves it
  on_goal 11 => exact .inr (.inr (.inl hi))
  on_goal 8 => exact .inr (.inr (.inr hi))
  on_goal 7 => exact .inr (.inl hi)
  all_goals exact .inl (by simp)

/-- A write that reaches neither `CMD` nor `CRC` leaves `CRC`. -/
theorem memWrite_crc {off : Offset} {v : Word} {s t : State} (hcmd : off ≠ RegName.cmd.offset)
    (hcrc : off ≠ RegName.crc.offset) (h : memWrite off v s = .next t) : t.crc = s.crc := by
  rcases memWrite_next h with ⟨ht, -⟩ | ⟨-, rfl⟩ | ⟨ht, -⟩ | ⟨-, rfl⟩ | ⟨-, ⟨n, rfl⟩ | rfl⟩ |
    ⟨sel, -, ⟨n, rfl⟩ | rfl⟩ | ⟨k, -, rfl⟩ | ⟨sel, k, -, rfl⟩
  -- the two excluded offsets
  on_goal 3 => exact absurd (target_eq_register_iff.1 ht) hcrc
  on_goal 1 => exact absurd (target_eq_register_iff.1 ht) hcmd
  all_goals simp

/-- `CRC_PKT` on a packet computes from the initial value, so the old `CRC` is not read (R83). -/
theorem exec_crcPkt_setCrc {s : State} (h : s.bufLen.val ≠ 0) (c : Half) :
    exec .crcPkt (s.setCrc c) = exec .crcPkt s := by
  rw [exec_crcPkt_of_bytes h, exec_crcPkt_of_bytes (s := s.setCrc c) h]
  rfl

/-! The length writes -/

/-- R31 for `BUF_LEN`: taken up to 64, rejected with `RANGE` above. -/
theorem writeBufLen_checked (v : Word) (s : State) :
    (v.toNat ≤ 64 → writeBufLen v s = s.setBufLen (writeBufLen v s).bufLen ∧
      (writeBufLen v s).bufLen.val = v.toNat) ∧
    (64 < v.toNat → writeBufLen v s = s.setErr .range) := by
  rcases writeBufLen_cases v s with ⟨hle, n, hn, e⟩ | ⟨hgt, e⟩ <;> rw [e]
  · exact ⟨fun _ => ⟨rfl, hn⟩, fun hgt => absurd hle (by omega)⟩
  · exact ⟨fun hle => absurd hle (by omega), fun _ => rfl⟩

/-- R31 for `LEN_A` and `LEN_B`: taken up to 512, rejected with `RANGE` above. -/
theorem writeLen_checked (sel : Sel) (v : Word) (s : State) :
    (v.toNat ≤ 512 → writeLen sel v s = s.setLen sel ((writeLen sel v s).len sel) ∧
      ((writeLen sel v s).len sel).val = v.toNat) ∧
    (512 < v.toNat → writeLen sel v s = s.setErr .range) := by
  rcases writeLen_cases sel v s with ⟨hle, n, hn, e⟩ | ⟨hgt, e⟩ <;> rw [e]
  · rw [State.setLen_len_same]
    exact ⟨fun _ => ⟨rfl, hn⟩, fun hgt => absurd hle (by omega)⟩
  · exact ⟨fun hle => absurd hle (by omega), fun _ => rfl⟩

/-! The obligations -/

/-- Settles O33 (R33): the frame is `exec_opa` for commands and `memWrite_opa` for host writes. -/
theorem opaRegisterAccess : Obligations.OpaRegisterAccess := by
  refine ⟨fun _ _ _ => exec_opa, memWrite_register .opa, fun _ _ _ _ => memWrite_opa, fun s => ⟨?_, ?_⟩⟩
  · exact memRead_register .opa s
  · exact memRead_register .res s

/-- Settles O35 (R22, R32): a command's change is `exec_crc`, a host write's frame `memWrite_crc`. -/
theorem crcRegisterAccess : Obligations.CrcRegisterAccess := by
  refine ⟨?changes, memRead_register .crc, ?write, fun _ _ _ _ => memWrite_crc, fun s c h => exec_crcPkt_setCrc h c⟩
  case changes => exact fun i s t h hne => (exec_crc h).resolve_left hne
  case write =>
    intro v s
    rw [← BitVec.setWidth_eq_extractLsb' (by decide)]
    exact memWrite_register .crc v s

/-- Settles O45 (R38): both ranges reach `Target.reserved`, which reads as 0 and ignores a write. -/
theorem reservedOffsetsReadZeroIgnoreWrites : Obligations.ReservedOffsetsReadZeroIgnoreWrites := by
  intro v s master off ha hoff hr
  have ht : target off = .reserved := target_of_reserved (by omega)
  have hread : memRead off s = 0#32 := by rw [memRead, ht, readTarget]
  have hwrite : memWrite off v s = .next s := by rw [memWrite, ht, writeTarget]
  exact ⟨hread ▸ serve_read ha hr master, serve_write ha hr hwrite master⟩

/-- Settles O43 (R31). -/
theorem lengthWritesAreRangeChecked : Obligations.LengthWritesAreRangeChecked := by
  intro v s
  refine ⟨⟨writeBufLen v s, ?_, writeBufLen_checked v s⟩, ⟨writeLen .a v s, ?_, writeLen_checked .a v s⟩,
    ⟨writeLen .b v s, ?_, writeLen_checked .b v s⟩⟩
  · exact memWrite_register .bufLen v s
  · exact memWrite_register .lenA v s
  · exact memWrite_register .lenB v s

/-- Settles O44 (R34). -/
theorem readOnlyRegistersIgnoreWrites : Obligations.ReadOnlyRegistersIgnoreWrites := by
  intro v s master off hoff
  have hwrite : memWrite off v s = .next s := by
    rcases hoff with rfl | rfl
    · exact memWrite_register .status v s
    · exact memWrite_register .res v s
  have ha : off.toNat % 4 = 0 := by rcases hoff with rfl | rfl <;> rfl
  exact ⟨hwrite, fun hr => serve_write ha hr hwrite master⟩

end Sys2Proof.Machine
end

section
/-! The windows of the register map (R30) and the accesses the port rejects (R43, R91), said once; with them the write map
over the whole aperture (R49). -/

namespace Sys2Proof.Machine

/-! The windows -/

theorem target_bufWindow : ∀ k : Fin 16, target (BitVec.ofNat 12 (0x100 + 4 * k)) = .bufWindow k := by decide

theorem target_bitWindow_a : ∀ k : Fin 16, target (BitVec.ofNat 12 (0x140 + 4 * k)) = .bitWindow .a k := by decide

theorem target_bitWindow_b : ∀ k : Fin 16, target (BitVec.ofNat 12 (0x180 + 4 * k)) = .bitWindow .b k := by decide

/-- A write's effect is the one of the target its offset reaches (R49). -/
theorem memWrite_of_target {off : Offset} {g : Target} (h : target off = g) (v : Word) (s : State) :
    memWrite off v s = writeTarget v s g := by
  rw [memWrite, h]

/-! Rejected accesses -/

theorem accepts_eq_false_iff {width : AccessWidth} {off : Offset} :
    accepts width off = false ↔ off.toNat % 4 ≠ 0 ∨ width ≠ .w32 := by
  rw [accepts, Bool.and_eq_false_iff, decide_eq_false_iff_not, decide_eq_false_iff_not, or_comm]

/-- A write of another width or alignment is a bus error, whatever its offset reaches (R91). -/
theorem serve_write_rejected {width : AccessWidth} {off : Offset} {s : State}
    (h : off.toNat % 4 ≠ 0 ∨ width ≠ .w32) (hr : s.inReset = false) (master : Nat) (v : Word) :
    serve master (.write width off v) s = .fault (.busError off) := by
  simp [serve, hr, accepts_eq_false_iff.2 h]

/-! The obligation -/

/-- Settles O42 (R49): a register by `memWrite_register`, a window by its `target` lemma, a reserved offset by
`target_of_reserved`; the port by `serve_write_rejected` and `serve_write`. -/
theorem memWriteFollowsTheRegisterMap : Obligations.MemWriteFollowsTheRegisterMap := by
  intro v s
  refine ⟨memWrite_register .cmd v s, memWrite_register .status v s, memWrite_register .res v s, ?crc,
    memWrite_register .opa v s, memWrite_register .bufLen v s, memWrite_register .lenA v s,
    memWrite_register .lenB v s, ?bufWindow, ?aWindow, ?bWindow, ?reserved, ?rejected, ?served⟩
  case crc =>
    obtain ⟨-, -, hwrite, -⟩ := crcRegisterAccess
    exact hwrite v s
  case bufWindow => exact fun k hk => memWrite_of_target (target_bufWindow ⟨k, hk⟩) v s
  case aWindow => exact fun k hk => memWrite_of_target (target_bitWindow_a ⟨k, hk⟩) v s
  case bWindow => exact fun k hk => memWrite_of_target (target_bitWindow_b ⟨k, hk⟩) v s
  case reserved => exact fun off _ hoff => memWrite_of_target (target_of_reserved hoff) v s
  case rejected => exact fun master width off h hr => serve_write_rejected h hr master v
  case served => exact fun master off t ha hr h => serve_write ha hr h master

end Sys2Proof.Machine
end

section
/-! The decoder as the match and mask table (R63 to R65), said once: a word is matched by one row at most, and decoding
answers that row's instruction, or illegal. With it the words of the assembler's lines (R57, R67). -/

namespace Sys2Proof.Machine

/-! The table -/

/-- The one extra condition of the table is the count of `CRC_STEP`. -/
theorem Row.hits_iff {r : Row} {v : Word} :
    r.hits v = true ↔ v &&& r.mask = r.pattern ∧ (r.op = .crcStep → countField v ≤ maxBitCount) := by
  obtain ⟨op, pattern, mask⟩ := r
  cases op <;> simp [Row.hits, Row.cond]

/-- Every row fixes the whole field `OP`. -/
theorem Row.opField_of_hits {r : Row} {v : Word} (hr : r ∈ rows) (h : r.hits v = true) :
    opField v = opField r.pattern := by
  have hmask : ∀ r ∈ rows, opField r.mask = BitVec.allOnes 4 := by decide
  obtain ⟨hm, -⟩ := Row.hits_iff.1 h
  calc opField v = opField v &&& opField r.mask := by rw [hmask r hr, BitVec.and_allOnes]
    _ = opField (v &&& r.mask) := BitVec.extractLsb'_and.symm
    _ = opField r.pattern := by rw [hm]

/-- R65: at most one row matches, since the rows' `OP` values differ. -/
theorem Row.eq_of_hits {r r' : Row} {v : Word} (hr : r ∈ rows) (hr' : r' ∈ rows) (h : r.hits v = true)
    (h' : r'.hits v = true) : r = r' := by
  have hop : ∀ r ∈ rows, ∀ r' ∈ rows, opField r.pattern = opField r'.pattern → r = r' := by decide
  exact hop r hr r' hr' ((Row.opField_of_hits hr h).symm.trans (Row.opField_of_hits hr' h'))

/-- R62: every row's mask keeps the reserved bits, and its pattern has them 0. -/
theorem Row.reserved_of_hits {r : Row} {v : Word} (hr : r ∈ rows) (h : r.hits v = true) :
    v &&& reservedMask = 0#32 := by
  have hrow : ∀ r ∈ rows, r.mask &&& reservedMask = reservedMask ∧ r.pattern &&& reservedMask = 0#32 := by decide
  obtain ⟨hmask, hpattern⟩ := hrow r hr
  obtain ⟨hm, -⟩ := Row.hits_iff.1 h
  calc v &&& reservedMask = v &&& r.mask &&& reservedMask := by rw [BitVec.and_assoc, hmask]
    _ = 0#32 := by rw [hm, hpattern]

/-! Decoding -/

/-- Decoding answers the instruction of a row that matches, or illegal where none does. -/
theorem decode_cases (v : Word) :
    (∃ r ∈ rows, r.hits v = true ∧ decode v = .instr (r.op.build v)) ∨
    ((¬ ∃ r ∈ rows, r.hits v = true) ∧ ∃ why, decode v = .illegal why) := by
  unfold decode
  cases hf : rows.find? (fun r => r.hits v) with
  | some r =>
    have hh : r.hits v = true := by simpa using List.find?_some hf
    exact .inl ⟨r, List.mem_of_find?_eq_some hf, hh, rfl⟩
  | none => exact .inr ⟨by simpa using hf, _, rfl⟩

theorem decode_of_hits {r : Row} {v : Word} (hr : r ∈ rows) (h : r.hits v = true) :
    decode v = .instr (r.op.build v) := by
  rcases decode_cases v with ⟨r', hr', h', hd⟩ | ⟨hnone, -⟩
  · rw [Row.eq_of_hits hr hr' h h', hd]
  · exact absurd ⟨r, hr, h⟩ hnone

theorem decode_eq_instr_iff {v : Word} {i : Instr} :
    decode v = .instr i ↔ ∃ r ∈ rows, r.hits v = true ∧ r.op.build v = i := by
  constructor
  · intro h
    rcases decode_cases v with ⟨r, hr, hh, hd⟩ | ⟨-, why, hd⟩
    · exact ⟨r, hr, hh, Decoded.instr.inj (hd.symm.trans h)⟩
    · cases hd.symm.trans h
  · rintro ⟨r, hr, hh, rfl⟩
    exact decode_of_hits hr hh

theorem decode_illegal_iff {v : Word} : (∃ why, decode v = .illegal why) ↔ ¬ ∃ r ∈ rows, r.hits v = true := by
  constructor
  · rintro ⟨why, hd⟩ ⟨r, hr, hh⟩
    cases hd.symm.trans (decode_of_hits hr hh)
  · intro h
    rcases decode_cases v with ⟨r, hr, hh, -⟩ | ⟨-, hd⟩
    · exact absurd ⟨r, hr, hh⟩ h
    · exact hd

/-- R64: no row has an opcode from 9 to 15. -/
theorem decode_of_reserved_opcode {v : Word} (h : 9#4 ≤ opField v) : ∃ why, decode v = .illegal why := by
  have hop : ∀ r ∈ rows, ¬ 9#4 ≤ opField r.pattern := by decide
  rw [decode_illegal_iff]
  rintro ⟨r, hr, hh⟩
  exact hop r hr (Row.opField_of_hits hr hh ▸ h)

theorem decode_of_reserved_bit {v : Word} (h : v &&& reservedMask ≠ 0#32) : ∃ why, decode v = .illegal why := by
  rw [decode_illegal_iff]
  rintro ⟨r, hr, hh⟩
  exact h (Row.reserved_of_hits hr hh)

theorem selField_eq_iff {v : Word} {sel : Sel} : selField v = sel ↔ (v.getLsbD 4 = true ↔ sel = .b) := by
  cases sel <;> simp [selField]

/-! The assembler -/

theorem asmSel_eq_none {x : String} (ha : x ≠ "a") (hb : x ≠ "b") : asmSel x = none := by
  rw [asmSel, if_neg ha, if_neg hb]

theorem toNat_append_eq_add {m n : Nat} (x : BitVec m) (y : BitVec n) :
    (x ++ y).toNat = x.toNat * 2 ^ n + y.toNat := by
  rw [BitVec.toNat_append, ← Nat.shiftLeft_add_eq_or_of_lt y.isLt, Nat.shiftLeft_eq]

/-- The layout of rule R57 as a number: each field at its place value. -/
theorem commandWord_toNat (data : Byte) (n : BitVec 4) (sel : BitVec 1) (op : BitVec 4) :
    (commandWord data n sel op).toNat = 65536 * data.toNat + 256 * n.toNat + 16 * sel.toNat + op.toNat := by
  simp only [commandWord, toNat_append_eq_add, BitVec.toNat_ofNat]
  omega

/-- R67: the word of `crc.step d, n`. -/
theorem encode_crcStep {d n : Nat} (hd : d ≤ 255) (hn : n ≤ 8) :
    encode (.crcStep (BitVec.ofNat 8 d) (BitVec.ofNat 4 n)) = BitVec.ofNat 32 (7 + 65536 * d + 256 * n) := by
  apply BitVec.eq_of_toNat_eq
  simp only [encode, commandWord_toNat, BitVec.toNat_ofNat]
  omega

/-! The obligations -/

/-- Settles O3 (R63, R64): a command's clause is `decode_eq_instr_iff` over the nine rows, of which only the command's
own builds it; the clause of the illegal words is `decode_illegal_iff` over the same rows. -/
theorem decodeFollowsTheMatchMaskTable : Obligations.DecodeFollowsTheMatchMaskTable := by
  intro v
  refine ⟨?nop, ?f2c, ?c2f, fun sel => ?b2s, fun sel => ?s2b, fun sel => ?xor, ?crcInit, fun d n => ?crcStep, ?crcPkt,
    ?illegal, decode_of_reserved_opcode⟩
  case crcStep =>
    have hrow : decode v = .instr (.crcStep d n) ↔ (v &&& 0xFF00F0FF#32 = 7#32 ∧ countField v ≤ 8#4) ∧
        dataField v = d ∧ countField v = n := by
      simp [decode_eq_instr_iff, rows, Row.hits_iff, Op.build, maxBitCount]
    rw [hrow]
    constructor
    · rintro ⟨⟨hm, hle⟩, rfl, rfl⟩; exact ⟨hm, hle, rfl, rfl⟩
    · rintro ⟨hm, hle, rfl, rfl⟩; exact ⟨⟨hm, hle⟩, rfl, rfl⟩
  case illegal =>
    have hall : v &&& 0xFFFFFFFF#32 = v := BitVec.and_allOnes
    rw [decode_illegal_iff]
    simp [rows, Row.hits_iff, hall, countField, maxBitCount]
  all_goals simp [decode_eq_instr_iff, rows, Row.hits_iff, Op.build, selField_eq_iff]

/-- Settles O4 (R62). -/
theorem reservedBitMakesTheWordIllegal : Obligations.ReservedBitMakesTheWordIllegal := by
  intro v s hv
  obtain ⟨why, hd⟩ := decode_of_reserved_bit hv
  exact ⟨⟨why, hd⟩, execute_of_illegal hd s⟩

/-- Settles O5 (R65): the rows exclude each other by `Row.eq_of_hits`; the write of an illegal word is answered as done
because `fail` completes. -/
theorem executeFollowsTheTable : Obligations.ExecuteFollowsTheTable := by
  intro v s
  refine ⟨fun r hr h => execute_of_instr (decode_of_hits hr h) s, fun r hr r' hr' => Row.eq_of_hits hr hr', ?_⟩
  intro hnone
  obtain ⟨why, hd⟩ := decode_illegal_iff.2 fun ⟨r, hr, h⟩ => Bool.false_ne_true ((hnone r hr).symm.trans h)
  have hexec : execute v s = .next (s.setErr .illegal) := execute_of_illegal hd s
  have hwrite : memWrite 0x000#12 v s = .next (s.setErr .illegal) := (memWrite_register .cmd v s).trans hexec
  exact ⟨hexec, fun master hr => serve_write rfl hr hwrite master⟩

/-- Settles O7 (R67, R68): the fixed lines compute, and the word of `crc.step` is `encode_crcStep`. -/
theorem assemblerEncodesItsSyntax : Obligations.AssemblerEncodesItsSyntax := by
  refine ⟨rfl, rfl, rfl, ⟨rfl, rfl⟩, ⟨rfl, rfl⟩, ⟨rfl, rfl⟩, rfl, rfl, ?operand, ?word, ?range,
    fun d => ⟨rfl, rfl⟩, rfl⟩
  case operand =>
    intro x ha hb
    simp [assemble, asmSel_eq_none ha hb]
  case word =>
    intro d n hd hn
    rw [assemble, asmCrcStep, if_pos ⟨hd, hn⟩, Option.map_some, encode_crcStep hd hn]
  case range =>
    intro d n h
    rw [assemble, asmCrcStep, if_neg (by omega)]

end Sys2Proof.Machine
end

section
/-! The channel/frequency mapper (R70 to R73): the 32-bit result of a command read as two's complement, against the
source's unbounded integer. -/

namespace Sys2Proof.Machine

/-! Two's complement against unbounded integers -/

/-- R71's subtraction is the source's on integers, wrapped. -/
theorem toInt_sub_chanOffset (x : Word) :
    (x - Config.chanOffset).toInt = (Source.frequencyToChannel x.toInt).bmod (2 ^ 32) :=
  BitVec.toInt_sub

/-- R72's addition is the source's on integers, wrapped. -/
theorem toInt_add_chanOffset (x : Word) :
    (x + Config.chanOffset).toInt = (Source.channelToFrequency x.toInt).bmod (2 ^ 32) :=
  BitVec.toInt_add x Config.chanOffset

/-- R70: wrapping leaves exactly the integers of the 32-bit two's complement range. -/
theorem bmod_two_pow_32_eq_self_iff {n : Int} : n.bmod (2 ^ 32) = n ↔ -2 ^ 31 ≤ n ∧ n ≤ 2 ^ 31 - 1 := by
  rw [Int.bmod_eq_iff (by decide)]
  omega

/-- What a mapper command leaves: `RES` and `ERR` set, every other field as it was. -/
theorem State.setErr_setRes (s : State) (v : Word) (c : ErrCode) :
    (s.setRes v).setErr c = { s with res := v, err := c } := rfl

/-! The obligations -/

/-- Settles O12 (R70): the result is the source's integer wrapped, and wrapping keeps it exactly when it fits. -/
theorem mapperAgreesWithTheSourceWhenItFits : Obligations.MapperAgreesWithTheSourceWhenItFits := by
  refine fun s => ⟨⟨_, exec_f2c s, ?f2c⟩, ⟨_, exec_c2f s, ?c2f⟩⟩
  case f2c =>
    rw [State.setErr_res, State.setRes_res, toInt_sub_chanOffset]
    exact ⟨rfl, bmod_two_pow_32_eq_self_iff⟩
  case c2f =>
    rw [State.setErr_res, State.setRes_res, toInt_add_chanOffset]
    exact ⟨rfl, bmod_two_pow_32_eq_self_iff⟩

/-- Settles O9 (R71): `encode` gives word 1, and the next state is `exec_f2c` with the offset 2400. -/
theorem f2cSubtracts2400 : Obligations.F2CSubtracts2400 :=
  ⟨rfl, fun s => by rw [exec_f2c, State.setErr_setRes, Config.chanOffset]⟩

/-- Settles O10 (R72): `encode` gives word 2, and the next state is `exec_c2f` with the offset 2400. -/
theorem c2fAdds2400 : Obligations.C2FAdds2400 :=
  ⟨rfl, fun s => by rw [exec_c2f, State.setErr_setRes, Config.chanOffset]⟩

/-- Settles O11 (R73): addition and subtraction of the offset modulo 2^32 are inverse functions. -/
theorem mapperCommandsAreInverse : Obligations.MapperCommandsAreInverse := by
  refine fun s => ⟨⟨_, _, exec_f2c s, exec_c2f _, ?subThenAdd⟩, ⟨_, _, exec_c2f s, exec_f2c _, ?addThenSub⟩⟩
  case subThenAdd => exact BitVec.sub_add_cancel s.opa Config.chanOffset
  case addThenSub => exact BitVec.add_sub_cancel s.opa Config.chanOffset

end Sys2Proof.Machine
end

section
/-! The CRC engine (R79 to R82): the shift loop against the source's loop on character strings, the packet loop as a fold,
and the words of `CRC_STEP`. -/

namespace Sys2Proof.Machine

/-! The iterations -/

theorem crcIterate_eq_iterate (n : Nat) : crcIterate n = crcShift^[n] := by
  induction n with
  | zero => rfl
  | succ n ih => funext w; rw [crcIterate, ih, Function.iterate_succ_apply]

theorem Source.crcIterate_eq_iterate (n : Nat) : Source.crcIterate n = Source.crcShift^[n] := by
  induction n with
  | zero => rfl
  | succ n ih => funext w; rw [Source.crcIterate, ih, Function.iterate_succ_apply]

theorem crcStep_zero (r : Half) (b : Byte) : crcStep r b 0 = r ^^^ (b.setWidth 16 <<< 8) := rfl

/-- R79: one more count is one more shift, made last. -/
theorem crcStep_succ (r : Half) (b : Byte) (n : Nat) : crcStep r b (n + 1) = crcShift (crcStep r b n) := by
  rw [crcStep, crcStep, crcIterate_eq_iterate, crcIterate_eq_iterate, Function.iterate_succ_apply']

/-! The source's strings -/

theorem Source.groupValue_concat (group : List Bool) (b : Bool) :
    Source.groupValue (group ++ [b]) = Nat.bit b (Source.groupValue group) := by
  rw [Nat.bit_val]
  simp [Source.groupValue]

/-- Bit `i` of a group's value is its character `i` from the right (R75). -/
theorem Source.testBit_groupValue (group : List Bool) (i : Nat) :
    (Source.groupValue group).testBit i = group.reverse[i]?.getD false := by
  induction group using List.reverseRecOn generalizing i with
  | nil => simp [Source.groupValue]
  | append_singleton group b ih =>
    rw [Source.groupValue_concat]
    cases i with
    | zero => simp
    | succ i => simpa [Nat.testBit_bit_succ] using ih i

theorem Source.ofNat_groupValue_byteBits (b : Byte) : BitVec.ofNat 8 (Source.groupValue (Source.byteBits b)) = b := by
  apply BitVec.eq_of_getLsbD_eq
  intro i hi
  have hchar : (Source.byteBits b).reverse[i]? = some (b.getLsbD i) := by
    have hi' : 7 - (7 - i) = i := by omega
    simp [Source.byteBits, hi, hi']
  rw [BitVec.getLsbD_ofNat, Source.testBit_groupValue, hchar]
  simp [hi]

theorem Source.bytesToBits_cons (b : Byte) (bs : List Byte) :
    Source.bytesToBits (b :: bs) = Source.byteBits b ++ Source.bytesToBits bs := rfl

theorem Source.bitsToBytes_byteBits_append (b : Byte) (rest : List Bool) :
    Source.bitsToBytes (Source.byteBits b ++ rest) = b :: Source.bitsToBytes rest := by
  calc Source.bitsToBytes (Source.byteBits b ++ rest)
      = BitVec.ofNat 8 (Source.groupValue (Source.byteBits b)) :: Source.bitsToBytes rest := by
        simp [Source.byteBits, List.range_succ, Source.bitsToBytes]
    _ = b :: Source.bitsToBytes rest := by rw [Source.ofNat_groupValue_byteBits]

/-- R76: bytes written as characters read back as the same bytes. -/
theorem Source.bitsToBytes_bytesToBits (bs : List Byte) : Source.bitsToBytes (Source.bytesToBits bs) = bs := by
  induction bs with
  | nil => simp [Source.bytesToBits, Source.bitsToBytes]
  | cons b bs ih => rw [Source.bytesToBits_cons, Source.bitsToBytes_byteBits_append, ih]

/-! The register as the source's working string -/

/-- The 16 characters of a register value, bit 15 first: the string the source's iterations work on (R79). -/
def registerBits (w : Half) : List Bool := (List.range 16).map (fun j => w.getLsbD (15 - j))

/-- R23, R79: the working string of a register is the representation of its two bytes. -/
theorem bytesToBits_registerBytes (w : Half) : Source.bytesToBits (Source.registerBytes w) = registerBits w := by
  simp [Source.bytesToBits, Source.registerBytes, Source.byteBits, registerBits, List.range_succ]

theorem registerBits_xor (v w : Half) :
    List.zipWith Bool.xor (registerBits v) (registerBits w) = registerBits (v ^^^ w) := by
  simp [registerBits, List.zipWith_map, List.zipWith_self]

/-- R61, R79: the input byte's characters followed by eight `'0'` are the byte in bits 15..8. -/
theorem registerBits_input (b : Byte) :
    Source.bytesToBits [b] ++ List.replicate 8 false = registerBits (b.setWidth 16 <<< 8) := by
  simp [Source.bytesToBits, Source.byteBits, registerBits, List.range_succ]

theorem registerBits_poly : Source.bytesToBits Source.polyBytes = registerBits Config.poly := by decide

/-- Dropping the first character and appending `'0'` is the left shift. -/
theorem registerBits_shiftLeft (w : Half) :
    (registerBits w).tail ++ [false] = registerBits (w <<< 1) := by
  simp [registerBits, List.range_succ]

theorem crcShift_registerBits (w : Half) : Source.crcShift (registerBits w) = registerBits (crcShift w) := by
  have hcons : registerBits w = w.getLsbD 15 :: (registerBits w).tail := rfl
  rw [hcons, Source.crcShift, registerBits_shiftLeft, registerBits_poly, registerBits_xor, crcShift]
  exact (apply_ite registerBits _ _ _).symm

theorem crcIterate_registerBits (n : Nat) (w : Half) :
    Source.crcIterate n (registerBits w) = registerBits (crcIterate n w) := by
  have hshift : Function.Semiconj registerBits crcShift Source.crcShift := fun w => (crcShift_registerBits w).symm
  rw [crcIterate_eq_iterate, Source.crcIterate_eq_iterate]
  exact ((hshift.iterate_right n) w).symm

/-- R79: the source's string algorithm on the register's two bytes. -/
theorem crcStep_registerBytes (r : Half) (b : Byte) (n : Nat) :
    Source.crcStep (Source.registerBytes r) b n = Source.registerBytes (crcStep r b n) := by
  rw [Source.crcStep, bytesToBits_registerBytes, registerBits_input, registerBits_xor, crcIterate_registerBits,
    ← bytesToBits_registerBytes, Source.bitsToBytes_bytesToBits, crcStep]

/-! The packet loop -/

theorem crcBytes_cons {bs : List Byte} (h : bs ≠ []) (r : Half) (b : Byte) :
    crcBytes r (b :: bs) = crcBytes (crcStep r b 8) bs := by
  cases bs with
  | nil => exact absurd rfl h
  | cons c bs => rfl

/-- R80: from any register, the bytes before the last are a fold of 8 iterations each. -/
theorem crcBytes_concat (r : Half) (first : List Byte) (last : Byte) :
    crcBytes r (first ++ [last]) = crcStep (first.foldl (fun r b => crcStep r b 8) r) last 1 := by
  induction first generalizing r with
  | nil => rfl
  | cons b first ih => rw [List.cons_append, crcBytes_cons (by simp), ih, List.foldl_cons]

/-! The words of `CRC_STEP` -/

theorem opField_commandWord (data : Byte) (n : BitVec 4) (sel : BitVec 1) (op : BitVec 4) :
    opField (commandWord data n sel op) = op := by
  apply BitVec.eq_of_toNat_eq
  rw [opField, BitVec.extractLsb'_toNat, commandWord_toNat]
  omega

theorem countField_commandWord (data : Byte) (n : BitVec 4) (sel : BitVec 1) (op : BitVec 4) :
    countField (commandWord data n sel op) = n := by
  apply BitVec.eq_of_toNat_eq
  rw [countField, BitVec.extractLsb'_toNat, commandWord_toNat]
  omega

/-- R57, R82: the fields of `CRC_STEP` at their places. -/
theorem encode_crcStep_eq_or (d : Byte) (n : BitVec 4) :
    encode (.crcStep d n) = 7#32 ||| (d.setWidth 32 <<< 16) ||| (n.setWidth 32 <<< 8) := by
  apply BitVec.eq_of_toNat_eq
  have hd := d.isLt
  have hn := n.isLt
  have hlow : n.toNat <<< 8 + 7 < 2 ^ 16 := by omega
  calc (encode (.crcStep d n)).toNat
      = d.toNat <<< 16 + (n.toNat <<< 8 + 7) := by
        simp only [encode, commandWord_toNat, BitVec.toNat_ofNat]
        omega
    _ = 7 ||| d.toNat <<< 16 ||| n.toNat <<< 8 := by
        rw [Nat.shiftLeft_add_eq_or_of_lt hlow, Nat.shiftLeft_add_eq_or_of_lt (by decide)]
        ac_rfl
    _ = (7#32 ||| (d.setWidth 32 <<< 16) ||| (n.setWidth 32 <<< 8)).toNat := by
        simp (disch := omega) [Nat.mod_eq_of_lt]

/-- R63: `CRC_STEP`'s row is the only one with `OP` = 7, so with a count above 8 no row matches. -/
theorem decode_of_count_over_8 {v : Word} (hop : opField v = 7#4) (hn : maxBitCount < countField v) :
    ∃ why, decode v = .illegal why := by
  have hrow : ∀ r ∈ rows, opField r.pattern = 7#4 → r.op = .crcStep := by decide
  rw [decode_illegal_iff]
  rintro ⟨r, hr, hh⟩
  have hstep : r.op = .crcStep := hrow r hr ((Row.opField_of_hits hr hh).symm.trans hop)
  exact absurd ((Row.hits_iff.1 hh).2 hstep) (BitVec.not_le.2 hn)

/-! The obligations -/

/-- Settles O19 (R79): a count is a shift by `crcStep_succ`, and the string algorithm is `crcStep_registerBytes`, which
follows the register as its working string `registerBits`. -/
theorem crcStepIsTheSourcesStringStep : Obligations.CrcStepIsTheSourcesStringStep :=
  fun r b => ⟨crcStep_zero r b, crcStep_succ r b, fun n => (crcStep_registerBytes r b n).symm⟩

/-- Settles O20 (R80): `crcBytes_concat` from `0xFFFF`. -/
theorem calcCrcGivesTheLastByteOneIteration : Obligations.CalcCrcGivesTheLastByteOneIteration :=
  crcBytes_concat Config.crcInit

/-- Settles O17 (R82): the next state is `exec_crcStep_of_le`; a count above 8 decodes to nothing by
`decode_of_count_over_8`. -/
theorem crcStepAppliesOneByte : Obligations.CrcStepAppliesOneByte := by
  refine ⟨fun d n hn => ⟨encode_crcStep_eq_or d n, fun s => exec_crcStep_of_le hn d s⟩, fun d n hn s => ?illegal⟩
  case illegal =>
    have hop : opField (encode (.crcStep d n)) = 7#4 := opField_commandWord d n 0#1 7#4
    have hcount : maxBitCount < countField (encode (.crcStep d n)) := by rwa [encode, countField_commandWord]
    obtain ⟨why, hd⟩ := decode_of_count_over_8 hop hcount
    rw [← encode_crcStep_eq_or]
    exact execute_of_illegal hd s

/-- Settles O16 (R81): the next state is `exec_crcInit`, and it is `CRC_INIT`'s own next state again. -/
theorem crcInitLoadsFFFF : Obligations.CrcInitLoadsFFFF := by
  refine ⟨rfl, exec_crcInit, fun s t h => ?idempotent⟩
  case idempotent =>
    cases (exec_crcInit s).symm.trans h
    rfl

end Sys2Proof.Machine
end

section
/-! The control command (R86): `NOP` is the whole word 0, and what its opcode's other words do. -/

namespace Sys2Proof.Machine

/-- R63: `NOP`'s row is the only one with `OP` = 0, and it fixes every bit. -/
theorem Row.eq_zero_of_hits {r : Row} {v : Word} (hr : r ∈ rows) (h : r.hits v = true) (hop : opField v = 0#4) :
    v = 0#32 := by
  have hrow : ∀ r ∈ rows, opField r.pattern = 0#4 → r.mask = BitVec.allOnes 32 ∧ r.pattern = 0#32 := by decide
  obtain ⟨hmask, hpattern⟩ := hrow r hr ((Row.opField_of_hits hr h).symm.trans hop)
  obtain ⟨hm, -⟩ := Row.hits_iff.1 h
  calc v = v &&& r.mask := by rw [hmask, BitVec.and_allOnes]
    _ = 0#32 := hm.trans hpattern

theorem decode_of_nop_opcode {v : Word} (hop : opField v = 0#4) (hv : v ≠ 0#32) : ∃ why, decode v = .illegal why := by
  rw [decode_illegal_iff]
  rintro ⟨r, hr, hh⟩
  exact hv (Row.eq_zero_of_hits hr hh hop)

/-- Settles O8 (R86): the next state is `exec_nop`, and no row matches another word with `OP` = 0. -/
theorem nopOnlyClearsErr : Obligations.NopOnlyClearsErr := by
  refine ⟨rfl, exec_nop, fun v s hop hv => ?illegal⟩
  case illegal =>
    obtain ⟨why, hd⟩ := decode_of_nop_opcode hop hv
    exact ⟨⟨why, hd⟩, execute_of_illegal hd s⟩

end Sys2Proof.Machine
end

section
/-! How a command ends (R88, R90): it succeeds and leaves `ERR = NONE`, or it fails and its code is all it writes. -/

namespace Sys2Proof.Machine

/-- R90 for a command: the three that can fail are `XOR`, `CRC_STEP` and `CRC_PKT`, none of them with `RANGE`. -/
theorem exec_err_none_or_eq_setErr {i : Instr} {s t : State} (h : exec i s = .next t) :
    t.err = .none ∨ ∃ c, c ≠ .range ∧ t = s.setErr c := by
  rcases exec_next h with ⟨-, rfl⟩ | ⟨-, v, rfl⟩ | ⟨sel, n, -, -, rfl⟩ | ⟨sel, n, -, -, rfl⟩ | ⟨sel, -, -, ht⟩ |
    ⟨sel, -, -, rfl⟩ | ⟨-, v, rfl⟩ | ⟨d, n, -, -, ht⟩ | ⟨-, -, ht⟩ | ⟨-, -, rfl⟩
  -- the three failures, last to first; every other case succeeds
  on_goal 9 => exact .inr ⟨.invalidInput, by decide, ht⟩
  on_goal 8 => exact .inr ⟨.illegal, by decide, ht⟩
  on_goal 5 => exact .inr ⟨.lengthMismatch, by decide, ht⟩
  all_goals exact .inl (State.setErr_err _ _)

/-- R90 for a word: an illegal one fails with `ILLEGAL` (R65), any other ends as its command does. -/
theorem execute_err_none_or_eq_setErr {v : Word} {s t : State} (h : execute v s = .next t) :
    t.err = .none ∨ ∃ c, c ≠ .range ∧ t = s.setErr c := by
  rcases execute_next h with ⟨i, -, hi⟩ | ht
  · exact exec_err_none_or_eq_setErr hi
  · exact .inr ⟨.illegal, by decide, ht⟩

/-- Settles O30 (R90): `execute_err_none_or_eq_setErr`, with the code read back from the state. -/
theorem failureChangesOnlyErr : Obligations.FailureChangesOnlyErr := by
  intro v s t h
  obtain hnone | ⟨c, hc, rfl⟩ := execute_err_none_or_eq_setErr h
  · exact .inl hnone
  · exact .inr ⟨hc, rfl⟩

end Sys2Proof.Machine
end

section
/-! The reset values (R100), read off the state after reset. -/

namespace Sys2Proof.Machine

/-- Settles O52 (R100): each register of `State.reset` is its literal, and `Memory.read_nil` reads no element of its three
empty memories (R27). -/
theorem resetValues : Obligations.ResetValues :=
  ⟨rfl, rfl, rfl, rfl, rfl, rfl, rfl, Memory.read_nil, Memory.read_nil, Memory.read_nil⟩

end Sys2Proof.Machine
end

section
/-! The two directions of the encoding (R57, R58, R63): a command word is its four fields where no reserved bit is set, and
each row of the table fixes the fields that its opcode does not use. -/

namespace Sys2Proof.Machine

/-! The fields of a command word -/

theorem dataField_commandWord (data : Byte) (n : BitVec 4) (sel : BitVec 1) (op : BitVec 4) :
    dataField (commandWord data n sel op) = data := by
  apply BitVec.eq_of_toNat_eq
  rw [dataField, BitVec.extractLsb'_toNat, commandWord_toNat]
  omega

/-- R57, R62: a word with no reserved bit set is made of its fields. -/
theorem commandWord_fields {v : Word} (h : v &&& reservedMask = 0#32) :
    commandWord (dataField v) (countField v) (v.extractLsb' 4 1) (opField v) = v := by
  have hzero (start len : Nat) (hmask : reservedMask.extractLsb' start len = BitVec.allOnes len) :
      v.extractLsb' start len = 0#len := by
    rw [← BitVec.and_allOnes (x := v.extractLsb' start len), ← hmask, ← BitVec.extractLsb'_and, h]
    simp
  have htop := congrArg BitVec.toNat (hzero 24 8 (by decide))
  have hmid := congrArg BitVec.toNat (hzero 12 4 (by decide))
  have hlow := congrArg BitVec.toNat (hzero 5 3 (by decide))
  apply BitVec.eq_of_toNat_eq
  simp only [commandWord_toNat, dataField, countField, opField, BitVec.extractLsb'_toNat, BitVec.toNat_ofNat,
    Nat.shiftRight_eq_div_pow] at *
  omega

/-- R63: where a row's mask covers a field, a word that matches has the pattern's value there. -/
theorem Row.field_of_hits {r : Row} {v : Word} (h : r.hits v = true) {start len : Nat}
    (hmask : r.mask.extractLsb' start len = BitVec.allOnes len) :
    v.extractLsb' start len = r.pattern.extractLsb' start len := by
  obtain ⟨hm, -⟩ := Row.hits_iff.1 h
  calc v.extractLsb' start len = v.extractLsb' start len &&& r.mask.extractLsb' start len := by
        rw [hmask, BitVec.and_allOnes]
    _ = (v &&& r.mask).extractLsb' start len := BitVec.extractLsb'_and.symm
    _ = r.pattern.extractLsb' start len := by rw [hm]

theorem Sel.bit_selField (v : Word) : (selField v).bit = v.extractLsb' 4 1 := by
  apply BitVec.eq_of_getLsbD_eq
  intro i hi
  obtain rfl : i = 0 := by omega
  unfold selField
  split <;> simp_all [Sel.bit]

/-! The two directions -/

/-- R63: the word of `CRC_STEP` has its row's pattern outside the two operand fields. -/
theorem encode_crcStep_and_mask (d : Byte) (n : BitVec 4) : encode (.crcStep d n) &&& 0xFF00F0FF#32 = 7#32 := by
  have hlow : encode (.crcStep d n) &&& 0x1F#32 = 7#32 := by
    apply BitVec.eq_of_toNat_eq
    rw [BitVec.toNat_and, encode, commandWord_toNat]
    exact (Nat.and_two_pow_sub_one_eq_mod _ 5).trans (by simp; omega)
  calc encode (.crcStep d n) &&& 0xFF00F0FF#32
      = encode (.crcStep d n) &&& reservedMask ||| encode (.crcStep d n) &&& 0x1F#32 := by
        rw [← BitVec.and_or_distrib_left]; rfl
    _ = 7#32 := by rw [show _ = 0#32 from Laws.ReservedBitsZero.crcStep d n, hlow, BitVec.zero_or]

theorem decode_encode {i : Instr} (h : WellFormed i = true) : decode (encode i) = .instr i := by
  cases i with
  | crcStep d n =>
    have hn : n ≤ maxBitCount := by simpa [WellFormed] using h
    have hhits : Row.hits ⟨.crcStep, 0x00000007#32, 0xFF00F0FF#32⟩ (encode (.crcStep d n)) = true :=
      Row.hits_iff.2 ⟨encode_crcStep_and_mask d n, fun _ => by rwa [encode, countField_commandWord]⟩
    rw [decode_of_hits (by decide) hhits, Op.build, encode, dataField_commandWord, countField_commandWord]
  | b2s sel => cases sel <;> rfl
  | s2b sel => cases sel <;> rfl
  | xor sel => cases sel <;> rfl
  | nop => rfl
  | f2c => rfl
  | c2f => rfl
  | crcInit => rfl
  | crcPkt => rfl

/-- The count of a matching `CRC_STEP` word is the row's extra condition; no other row builds a count. -/
theorem Row.wellFormed_build {r : Row} {v : Word} (h : r.hits v = true) : WellFormed (r.op.build v) = true := by
  obtain ⟨-, hcount⟩ := Row.hits_iff.1 h
  obtain ⟨op, pattern, mask⟩ := r
  cases op
  case crcStep => exact decide_eq_true (hcount rfl)
  all_goals rfl

/-- The instruction a matching row builds encodes as the word: the fields it drops are those the row fixes to 0. -/
theorem Row.encode_build {r : Row} {v : Word} (hr : r ∈ rows) (h : r.hits v = true) :
    encode (r.op.build v) = v := by
  have hv := commandWord_fields (Row.reserved_of_hits hr h)
  rw [Row.opField_of_hits hr h] at hv
  refine Eq.trans ?_ hv
  have hsel := Sel.bit_selField v
  simp only [rows, List.mem_cons, List.not_mem_nil, or_false] at hr
  rcases hr with rfl | rfl | rfl | rfl | rfl | rfl | rfl | rfl | rfl
  -- `CRC_STEP` drops `SEL` alone, every other row at least `DATA` and `N`
  on_goal 8 =>
    rw [show v.extractLsb' 4 1 = 0#1 from Row.field_of_hits h (by decide)]
    rfl
  all_goals
    rw [show dataField v = 0#8 from Row.field_of_hits h (by decide),
      show countField v = 0#4 from Row.field_of_hits h (by decide)]
  -- the rows of `B2S`, `S2B` and `XOR` keep `SEL`
  iterate 3 on_goal 4 => rw [← hsel]; rfl
  all_goals
    rw [show v.extractLsb' 4 1 = 0#1 from Row.field_of_hits h (by decide)]
    rfl

/-! The obligations -/

/-- Settles O1 (R57, R63): `decode_encode`; only `CRC_STEP` needs the match, the other words compute. -/
theorem decodeOfEncodeGivesTheInstruction : Obligations.DecodeOfEncodeGivesTheInstruction :=
  fun _ => decode_encode

/-- Settles O2 (R63, R64): the word matched a row (`decode_eq_instr_iff`), and `Row.encode_build` gives it back. -/
theorem decodedWordIsTheEncoding : Obligations.DecodedWordIsTheEncoding := by
  intro v i h
  obtain ⟨r, hr, hhits, rfl⟩ := decode_eq_instr_iff.1 h
  exact ⟨Row.wellFormed_build hhits, Row.encode_build hr hhits⟩

/-- Settles O6: each of the ten words is decoded by computation. -/
theorem sampleWordsDecode : Obligations.SampleWordsDecode := by
  refine ⟨?_, ?_, ?_, ?_, ?_, ?_, ?_, ?_, ?_, ?_⟩ <;> decide

end Sys2Proof.Machine
end

section
/-! What every command and every step keeps (R88, R93, R102, R105): commands complete and touch nothing outside the block,
the memories stay canonical and within their capacity, and dutiful hosts never stop the machine. -/

namespace Sys2Proof.Machine

/-! Completion -/

theorem exec_completes (i : Instr) (s : State) : ∃ t, exec i s = .next t := by
  cases i with
  | nop => exact ⟨_, exec_nop s⟩
  | f2c => exact ⟨_, exec_f2c s⟩
  | c2f => exact ⟨_, exec_c2f s⟩
  | b2s sel => exact ⟨_, rfl⟩
  | s2b sel => exact ⟨_, rfl⟩
  | xor sel =>
    by_cases h : s.lenA = s.lenB
    · exact ⟨_, exec_xor_of_eq h sel⟩
    · exact ⟨_, exec_xor_of_ne h sel⟩
  | crcInit => exact ⟨_, exec_crcInit s⟩
  | crcStep d n =>
    by_cases h : n ≤ maxBitCount
    · exact ⟨_, exec_crcStep_of_le h d s⟩
    · exact ⟨_, exec_crcStep_of_gt h d s⟩
  | crcPkt =>
    by_cases h : s.bufLen.val = 0
    · exact ⟨_, exec_crcPkt_of_empty h⟩
    · exact ⟨_, exec_crcPkt_of_bytes h⟩

theorem execute_completes (v : Word) (s : State) : ∃ t, execute v s = .next t := by
  cases hd : decode v with
  | instr i => rw [execute_of_instr hd]; exact exec_completes i s
  | illegal why => exact ⟨_, execute_of_illegal hd s⟩

/-- A command is the one write that could stop, and none does. -/
theorem memWrite_completes (off : Offset) (v : Word) (s : State) : ∃ t, memWrite off v s = .next t := by
  rw [memWrite]
  cases target off
  case cmd => exact execute_completes v s
  all_goals exact ⟨_, rfl⟩

/-- Serving stops only where an access breaks the host's duty (R105). -/
theorem serve_completes {e : BusEvent} (h : keepsDuty e = true) (master : Nat) (s : State) :
    ∃ t, serve master e s = .next t := by
  cases e with
  | assertReset => exact ⟨_, rfl⟩
  | releaseReset => exact ⟨_, rfl⟩
  | read w off =>
    rw [keepsDuty] at h
    rw [serve, h]
    split <;> exact ⟨_, rfl⟩
  | write w off v =>
    rw [keepsDuty] at h
    obtain ⟨t, ht⟩ := memWrite_completes off v s
    rw [serve, h, ht]
    split <;> exact ⟨_, rfl⟩

/-! The outside of the block -/

theorem exec_sameOutside {i : Instr} {s t : State} (h : exec i s = .next t) : SameOutside s t := by
  rcases exec_next h with ⟨-, rfl⟩ | ⟨-, v, rfl⟩ | ⟨sel, n, -, -, rfl⟩ | ⟨sel, n, -, -, rfl⟩ | ⟨sel, -, -, rfl⟩ |
    ⟨sel, -, -, rfl⟩ | ⟨-, v, rfl⟩ | ⟨d, n, -, -, rfl⟩ | ⟨-, -, rfl⟩ | ⟨-, -, rfl⟩ <;> simp [SameOutside]

theorem execute_sameOutside {v : Word} {s t : State} (h : execute v s = .next t) : SameOutside s t := by
  rcases execute_next h with ⟨i, -, hi⟩ | rfl
  · exact exec_sameOutside hi
  · exact ⟨rfl, rfl, rfl⟩

theorem memWrite_sameOutside {off : Offset} {v : Word} {s t : State} (h : memWrite off v s = .next t) :
    SameOutside s t := by
  rcases memWrite_next h with ⟨-, h⟩ | ⟨-, rfl⟩ | ⟨-, rfl⟩ | ⟨-, rfl⟩ | ⟨-, ⟨n, rfl⟩ | rfl⟩ |
    ⟨sel, -, ⟨n, rfl⟩ | rfl⟩ | ⟨k, -, rfl⟩ | ⟨sel, k, -, rfl⟩
  -- only a command needs a reason
  case inl => exact execute_sameOutside h
  all_goals simp [SameOutside]

/-- Serving an event takes no other event off. -/
theorem serve_streams {master : Nat} {e : BusEvent} {s t : State} (h : serve master e s = .next t) :
    t.streams = s.streams := by
  rcases serve_next h with ⟨-, rfl⟩ | ⟨-, rfl⟩ | ⟨-, rfl⟩ | ⟨w, off, -, -, -, rfl⟩ | ⟨w, off, v, u, -, -, -, hu, rfl⟩
  -- only a write needs a reason
  case inr.inr.inr.inr =>
    obtain ⟨-, hstreams, -⟩ := memWrite_sameOutside hu
    exact hstreams
  all_goals rfl

/-! The invariant -/

theorem State.Inv.fillBuf {s : State} (h : s.Inv) {start n : Nat} (hn : start + n ≤ 64) (f : Nat → Byte) :
    (s.setBuf (Memory.fill s.buf start f n)).Inv := by
  obtain ⟨hwf, hbelow, hrest⟩ := h
  exact ⟨Memory.wf_fill hwf start f n, Memory.below_fill hbelow hn f, hrest⟩

theorem State.Inv.fillBits {s : State} (h : s.Inv) (sel : Sel) {start n : Nat} (hn : start + n ≤ 512)
    (f : Nat → Bool) : (s.setBits sel (Memory.fill (s.bits sel) start f n)).Inv := by
  obtain ⟨hbuf, hbufBelow, ha, haBelow, hb, hbBelow⟩ := h
  cases sel with
  | a => exact ⟨hbuf, hbufBelow, Memory.wf_fill ha start f n, Memory.below_fill haBelow hn f, hb, hbBelow⟩
  | b => exact ⟨hbuf, hbufBelow, ha, haBelow, Memory.wf_fill hb start f n, Memory.below_fill hbBelow hn f⟩

theorem State.Inv.setLen {s : State} (h : s.Inv) (sel : Sel) (n : Fin 513) : (s.setLen sel n).Inv := by
  cases sel <;> exact h

/-- What a command writes to a buffer ends at a length, and lengths are within the capacity. -/
theorem exec_inv {i : Instr} {s t : State} (hs : s.Inv) (h : exec i s = .next t) : t.Inv := by
  rcases exec_next h with ⟨-, rfl⟩ | ⟨-, v, rfl⟩ | ⟨sel, n, -, -, rfl⟩ | ⟨sel, n, -, -, rfl⟩ | ⟨sel, -, -, rfl⟩ |
    ⟨sel, -, -, rfl⟩ | ⟨-, v, rfl⟩ | ⟨d, n, -, -, rfl⟩ | ⟨-, -, rfl⟩ | ⟨-, -, rfl⟩
  -- the three commands that write a buffer: `XOR`, `S2B` and `B2S`
  on_goal 6 => exact hs.fillBits sel (by omega) _
  on_goal 4 => exact hs.fillBuf (by omega) _
  on_goal 3 => exact (hs.fillBits sel (by omega) s.codecBit).setLen sel n
  all_goals exact hs

theorem execute_inv {v : Word} {s t : State} (hs : s.Inv) (h : execute v s = .next t) : t.Inv := by
  rcases execute_next h with ⟨i, -, hi⟩ | rfl
  · exact exec_inv hs hi
  · exact hs

theorem memWrite_inv {off : Offset} {v : Word} {s t : State} (hs : s.Inv) (h : memWrite off v s = .next t) : t.Inv := by
  rcases memWrite_next h with ⟨-, h⟩ | ⟨-, rfl⟩ | ⟨-, rfl⟩ | ⟨-, rfl⟩ | ⟨-, ⟨n, rfl⟩ | rfl⟩ |
    ⟨sel, -, ⟨n, rfl⟩ | rfl⟩ | ⟨k, -, rfl⟩ | ⟨sel, k, -, rfl⟩
  -- the windows, a length register and a command, last to first
  on_goal 10 => exact hs.fillBits sel (by omega) _
  on_goal 9 => exact hs.fillBuf (by omega) _
  on_goal 7 => exact hs.setLen sel n
  on_goal 1 => exact execute_inv hs h
  all_goals exact hs

theorem assertReset_inv (s : State) : s.assertReset.Inv := by
  simp [State.Inv, Memory.wf, Memory.below]

theorem serve_inv {master : Nat} {e : BusEvent} {s t : State} (hs : s.Inv) (h : serve master e s = .next t) : t.Inv := by
  rcases serve_next h with ⟨-, rfl⟩ | ⟨-, rfl⟩ | ⟨-, rfl⟩ | ⟨w, off, -, -, -, rfl⟩ | ⟨w, off, v, u, -, -, -, hu, rfl⟩
  on_goal 5 => exact (memWrite_inv hs hu : u.Inv)
  on_goal 1 => exact assertReset_inv s
  all_goals exact hs

theorem step_inv {s t : State} (hs : s.Inv) (h : step s = .next t) : t.Inv := by
  rcases step_next h with ⟨-, rfl⟩ | ⟨j, e, s', hn, hserve⟩
  · exact hs
  · obtain ⟨es, -, rfl⟩ := nextEvent_some hn
    refine serve_inv ?_ hserve
    exact hs

/-! The host's duty -/

/-- Taking an agent's oldest event leaves the duty to the events behind it. -/
theorem State.DutyKept.of_nextEvent {s s' : State} {j : Nat} {e : BusEvent} (hs : s.DutyKept)
    (h : nextEvent s = some (j, e, s')) : keepsDuty e = true ∧ s'.DutyKept := by
  obtain ⟨es, hj, rfl⟩ := nextEvent_some h
  have hlist : ∀ x ∈ e :: es, keepsDuty x = true := hs _ (List.mem_of_getElem? hj)
  refine ⟨hlist e List.mem_cons_self, fun q hq => ?_⟩
  rcases List.mem_or_eq_of_mem_set hq with hq | rfl
  · exact hs q hq
  · exact fun x hx => hlist x (List.mem_cons_of_mem e hx)

theorem step_dutyKept {s : State} (hs : s.DutyKept) : ∃ t, step s = .next t ∧ t.DutyKept := by
  cases hn : nextEvent s with
  | none => exact ⟨s, by rw [step, serveNext, hn], hs⟩
  | some p =>
    obtain ⟨j, e, s'⟩ := p
    obtain ⟨he, hs'⟩ := hs.of_nextEvent hn
    obtain ⟨t, ht⟩ := serve_completes he j s'
    refine ⟨t, by rw [step, serveNext, hn]; exact ht, ?_⟩
    rw [State.DutyKept, serve_streams ht]
    exact hs'

theorem run_succ {M : Host.Core} {s u : M.State} (h : M.step s = .next u) (n : Nat) :
    M.run (n + 1) s = M.run n u := by
  rw [Host.Core.run, h]

/-! The obligations -/

/-- Settles O56 (R24, R25): `step_inv`; every buffer write is a `Memory.fill` that ends within the capacity. -/
theorem stepKeepsTheInvariant : Obligations.StepKeepsTheInvariant :=
  fun _ _ => step_inv

/-- Settles O57 (R27, R100): the three memories are empty, as after an edge of the reset input. -/
theorem resetMeetsTheInvariant : Obligations.ResetMeetsTheInvariant :=
  assertReset_inv State.reset

/-- Settles O58 (R105), by induction on the number of steps with `step_dutyKept`. -/
theorem dutifulHostsNeverFault : Obligations.DutifulHostsNeverFault := by
  intro n
  induction n with
  | zero => exact fun s hs => ⟨s, rfl, hs⟩
  | succ n ih =>
    intro s hs
    obtain ⟨u, hu, hduty⟩ := step_dutyKept hs
    obtain ⟨t, ht, hkept⟩ := ih u hduty
    exact ⟨t, (run_succ (M := core) hu n).trans ht, hkept⟩

/-- Settles O29 (R88, R102): `exec_completes` and `execute_completes`. -/
theorem everyCommandCompletes : Obligations.EveryCommandCompletes :=
  ⟨exec_completes, execute_completes⟩

/-- Settles O32 (R18, R88, R93): `exec_sameOutside`. -/
theorem noCommandTouchesTheOutside : Obligations.NoCommandTouchesTheOutside :=
  fun _ _ _ => exec_sameOutside

end Sys2Proof.Machine
end

section
/-! What a command does to `ERR` and `RES`, and to the positions past a length (R21, R25, R28, R39, R89). -/

namespace Sys2Proof.Machine

/-! ERR -/

/-- The code a command leaves, from the state it starts in (R28, R89). -/
def errAfter (i : Instr) (s : State) : ErrCode :=
  match i with
  | .xor _ => if s.lenA = s.lenB then .none else .lengthMismatch
  | .crcStep _ n => if n ≤ maxBitCount then .none else .illegal
  | .crcPkt => if s.bufLen.val = 0 then .invalidInput else .none
  | .nop | .f2c | .c2f | .b2s _ | .s2b _ | .crcInit => .none

theorem exec_err {i : Instr} {s t : State} (h : exec i s = .next t) : t.err = errAfter i s := by
  cases i with
  | xor sel =>
    by_cases hl : s.lenA = s.lenB
    · cases (exec_xor_of_eq hl sel).symm.trans h; exact (if_pos hl).symm
    · cases (exec_xor_of_ne hl sel).symm.trans h; exact (if_neg hl).symm
  | crcStep d n =>
    by_cases hn : n ≤ maxBitCount
    · cases (exec_crcStep_of_le hn d s).symm.trans h; exact (if_pos hn).symm
    · cases (exec_crcStep_of_gt hn d s).symm.trans h; exact (if_neg hn).symm
  | crcPkt =>
    by_cases hl : s.bufLen.val = 0
    · cases (exec_crcPkt_of_empty hl).symm.trans h; exact (if_pos hl).symm
    · cases (exec_crcPkt_of_bytes hl).symm.trans h; exact (if_neg hl).symm
  | nop => cases h; rfl
  | f2c => cases h; rfl
  | c2f => cases h; rfl
  | b2s sel => cases h; rfl
  | s2b sel => cases h; rfl
  | crcInit => cases h; rfl

theorem exec_setErr (i : Instr) (s : State) (c : ErrCode) : exec i (s.setErr c) = exec i s := by
  cases i with
  | b2s sel => cases sel <;> rfl
  | xor sel => cases sel <;> rfl
  | nop => rfl
  | f2c => rfl
  | c2f => rfl
  | s2b sel => cases sel <;> rfl
  | crcInit => rfl
  | crcStep d n => rfl
  | crcPkt => rfl

/-! RES -/

theorem exec_res {i : Instr} {s t : State} (h : exec i s = .next t) : t.res = s.res ∨ i = .f2c ∨ i = .c2f := by
  rcases exec_next h with ⟨-, rfl⟩ | ⟨hi, -⟩ | ⟨sel, n, -, -, rfl⟩ | ⟨sel, n, -, -, rfl⟩ | ⟨sel, -, -, rfl⟩ |
    ⟨sel, -, -, rfl⟩ | ⟨-, v, rfl⟩ | ⟨d, n, -, -, rfl⟩ | ⟨-, -, rfl⟩ | ⟨-, -, rfl⟩
  on_goal 2 => exact .inr hi
  all_goals exact .inl (by simp)

/-- No target but `CMD` can change `RES`, `RES` itself included (R21). -/
theorem memWrite_res {off : Offset} {v : Word} {s t : State} (hcmd : off ≠ RegName.cmd.offset)
    (h : memWrite off v s = .next t) : t.res = s.res := by
  rcases memWrite_next h with ⟨ht, -⟩ | ⟨-, rfl⟩ | ⟨-, rfl⟩ | ⟨-, rfl⟩ | ⟨-, ⟨n, rfl⟩ | rfl⟩ |
    ⟨sel, -, ⟨n, rfl⟩ | rfl⟩ | ⟨k, -, rfl⟩ | ⟨sel, k, -, rfl⟩
  on_goal 1 => exact absurd (target_eq_register_iff.1 ht) hcmd
  all_goals simp

/-! Positions past the length -/

/-- A fill from 0 leaves every element from its length on. -/
theorem Memory.read_fill_of_le {α : Type} (m : Memory α) (f : Nat → α) {n k : Nat} (h : n ≤ k) :
    Memory.read (Memory.fill m 0 f n) k = Memory.read m k := by
  rw [Memory.read_fill, if_neg (by omega)]

/-- A fill from 0 sets every element below its length. -/
theorem Memory.read_fill_of_lt {α : Type} (m : Memory α) (f : Nat → α) {n k : Nat} (h : k < n) :
    Memory.read (Memory.fill m 0 f n) k = some (f k) := by
  rw [Memory.read_fill, if_pos (by omega), Nat.sub_zero]

theorem Sel.eq_or_eq_other (sel sel' : Sel) : sel' = sel ∨ sel' = sel.other := by
  cases sel <;> cases sel' <;> simp [Sel.other]

/-- R25: `B2S` and `XOR` fill a buffer up to its length; no other command writes one. -/
theorem exec_read_of_len_le {i : Instr} {s t : State} {sel : Sel} {p : Nat} (h : exec i s = .next t)
    (hp : (t.len sel).val ≤ p) : Memory.read (t.bits sel) p = Memory.read (s.bits sel) p := by
  rcases exec_next h with ⟨-, rfl⟩ | ⟨-, v, rfl⟩ | ⟨dst, n, -, -, rfl⟩ | ⟨src, n, -, -, rfl⟩ | ⟨dst, -, -, rfl⟩ |
    ⟨dst, -, hl, rfl⟩ | ⟨-, v, rfl⟩ | ⟨d, n, -, -, rfl⟩ | ⟨-, -, rfl⟩ | ⟨-, -, rfl⟩
  -- `B2S`
  case inr.inr.inl =>
    rcases Sel.eq_or_eq_other dst sel with rfl | rfl
    · simp only [State.setErr_len, State.draw_len, State.setLen_len_same] at hp
      simpa using Memory.read_fill_of_le _ _ hp
    · simp
  -- `XOR` on equal lengths
  case inr.inr.inr.inr.inr.inl =>
    rcases Sel.eq_or_eq_other dst sel with rfl | rfl
    · have hp' : s.lenA.val ≤ p := by cases sel <;> simpa [hl] using hp
      simpa using Memory.read_fill_of_le _ _ hp'
    · simp
  all_goals simp

/-! The obligations -/

/-- Settles O31 (R28, R89): `exec_err` gives the code by the instruction, and each clause reads it off. -/
theorem errAfterEachCommand : Obligations.ErrAfterEachCommand := by
  intro i s t h
  rw [exec_err h]
  cases i
  case xor sel => by_cases hl : s.lenA = s.lenB <;> simp [errAfter, hl]
  case crcStep d n => by_cases hn : n ≤ 8#4 <;> simp [errAfter, maxBitCount, hn, ← BitVec.not_le]
  case crcPkt => by_cases hl : s.bufLen.val = 0 <;> simp [errAfter, hl]
  all_goals simp [errAfter]

/-- Settles O34 (R21). -/
theorem onlyTheMapperWritesRes : Obligations.OnlyTheMapperWritesRes :=
  ⟨fun _ _ _ h hne => (exec_res h).resolve_left hne, fun _ _ _ _ => memWrite_res,
    fun v s => ⟨memWrite_register .res v s, memRead_register .res s⟩⟩

/-- Settles O36 (R39): `exec_setErr`. -/
theorem noCommandReadsErr : Obligations.NoCommandReadsErr :=
  exec_setErr

/-- Settles O37 (R25): `exec_read_of_len_le`. -/
theorem noCommandWritesPastTheLength : Obligations.NoCommandWritesPastTheLength :=
  fun _ _ _ _ _ => exec_read_of_len_le

end Sys2Proof.Machine
end

section
/-! The codec and the combinator (R74 to R78): the state each command leaves, read by fields, and the strings and sequences
it holds against the source's functions on lists. -/

namespace Sys2Proof.Machine

/-! The states that `B2S`, `S2B` and `XOR` on equal lengths leave -/

/-- The state after `B2S` into `sel` (R74). -/
def State.afterB2S (s : State) (sel : Sel) : State :=
  (((s.setBits sel (Memory.fill (s.bits sel) 0 s.codecBit (8 * s.bufLen.val))).setLen sel
    ⟨8 * s.bufLen.val, by omega⟩).draw).setErr .none

/-- The state after `S2B` from `sel` (R75). -/
def State.afterS2B (s : State) (sel : Sel) : State :=
  (((s.setBuf (Memory.fill s.buf 0 (s.codecByte sel) (bytesFor (s.len sel).val))).setBufLen
    ⟨bytesFor (s.len sel).val, by unfold bytesFor; omega⟩).draw).setErr .none

/-- The positions `XOR` combines (R77). -/
def State.xorBit (s : State) (p : Nat) : Bool := Bool.xor (s.bitAt .a p) (s.bitAt .b p)

/-- The state after `XOR` into `sel` on equal lengths (R77). -/
def State.afterXor (s : State) (sel : Sel) : State :=
  ((s.setBits sel (Memory.fill (s.bits sel) 0 s.xorBit s.lenA.val)).draw).setErr .none

theorem exec_b2s (sel : Sel) (s : State) : exec (.b2s sel) s = .next (s.afterB2S sel) := rfl

theorem exec_s2b (sel : Sel) (s : State) : exec (.s2b sel) s = .next (s.afterS2B sel) := rfl

theorem exec_xor {s : State} (h : s.lenA = s.lenB) (sel : Sel) : exec (.xor sel) s = .next (s.afterXor sel) :=
  exec_xor_of_eq h sel

@[simp] theorem State.afterB2S_len (s : State) (sel : Sel) : ((s.afterB2S sel).len sel).val = 8 * s.bufLen.val := by
  simp [State.afterB2S]

@[simp] theorem State.afterB2S_err (s : State) (sel : Sel) : (s.afterB2S sel).err = .none := rfl

theorem State.read_afterB2S (s : State) (sel : Sel) {p : Nat} (h : p < 8 * s.bufLen.val) :
    Memory.read ((s.afterB2S sel).bits sel) p = some (s.codecBit p) := by
  simpa [State.afterB2S] using Memory.read_fill_of_lt _ _ h

@[simp] theorem State.afterS2B_bufLen (s : State) (sel : Sel) :
    (s.afterS2B sel).bufLen.val = bytesFor (s.len sel).val := rfl

theorem State.read_afterS2B (s : State) (sel : Sel) {k : Nat} (h : k < bytesFor (s.len sel).val) :
    Memory.read (s.afterS2B sel).buf k = some (s.codecByte sel k) :=
  Memory.read_fill_of_lt _ _ h

@[simp] theorem State.afterXor_len (s : State) (dst sel : Sel) : (s.afterXor dst).len sel = s.len sel := by
  simp [State.afterXor]

theorem State.read_afterXor (s : State) (sel : Sel) {p : Nat} (h : p < s.lenA.val) :
    Memory.read ((s.afterXor sel).bits sel) p = some (s.xorBit p) := by
  simpa [State.afterXor] using Memory.read_fill_of_lt _ _ h

theorem State.read_afterXor_other (s : State) (sel : Sel) :
    (s.afterXor sel).bits sel.other = s.bits sel.other := by
  simp [State.afterXor]

/-! The strings and sequences they hold -/

theorem State.bitString_eq_map {s : State} {sel : Sel} {n : Nat} {f : Nat → Bool} (hlen : (s.len sel).val = n)
    (h : ∀ p < n, Memory.read (s.bits sel) p = some (f p)) : s.bitString sel = (List.range n).map f := by
  rw [State.bitString, hlen]
  exact List.map_congr_left fun p hp => State.bitAt_of_read (h p (List.mem_range.1 hp))

theorem State.byteSeq_eq_map {s : State} {n : Nat} {f : Nat → Byte} (hlen : s.bufLen.val = n)
    (h : ∀ k < n, Memory.read s.buf k = some (f k)) : s.byteSeq = (List.range n).map f := by
  rw [State.byteSeq, hlen]
  exact List.map_congr_left fun k hk => State.byteAt_of_read (h k (List.mem_range.1 hk))

theorem State.bitString_afterB2S (s : State) (sel : Sel) :
    (s.afterB2S sel).bitString sel = (List.range (8 * s.bufLen.val)).map s.codecBit :=
  State.bitString_eq_map (s.afterB2S_len sel) fun _ => s.read_afterB2S sel

theorem State.byteSeq_afterS2B (s : State) (sel : Sel) :
    (s.afterS2B sel).byteSeq = (List.range (bytesFor (s.len sel).val)).map (s.codecByte sel) :=
  State.byteSeq_eq_map (s.afterS2B_bufLen sel) fun _ => s.read_afterS2B sel

theorem State.bitString_afterXor {s : State} (h : s.lenA = s.lenB) (sel : Sel) :
    (s.afterXor sel).bitString sel = (List.range s.lenA.val).map s.xorBit := by
  refine State.bitString_eq_map ?_ fun _ => s.read_afterXor sel
  rw [State.afterXor_len]
  cases sel <;> simp [h]

/-! The source's codec on lists -/

/-- Bytes as characters, position by position: `8k + j` is bit `7 - j` of byte `k` (R74). -/
theorem Source.bytesToBits_map_range (f : Nat → Byte) (n : Nat) :
    Source.bytesToBits ((List.range n).map f) =
      (List.range (8 * n)).map (fun p => (f (p / 8)).getLsbD (7 - p % 8)) := by
  induction n with
  | zero => rfl
  | succ n ih =>
    have hlast : Source.bytesToBits [f n] = (List.range 8).map (fun j => (f n).getLsbD (7 - j)) := by
      simp [Source.bytesToBits, Source.byteBits]
    rw [List.range_succ, List.map_append, Source.bytesToBits, List.flatMap_append, ← Source.bytesToBits,
      ← Source.bytesToBits, ih, List.map_singleton, hlast, Nat.mul_succ, List.range_add, List.map_append, List.map_map]
    congr 1
    refine List.map_congr_left fun j hj => ?_
    have hj := List.mem_range.1 hj
    rw [Function.comp_apply, show (8 * n + j) / 8 = n by omega, show (8 * n + j) % 8 = j by omega]

/-- A group of eight characters is the representation of its value. -/
theorem Source.byteBits_ofNat_groupValue {group : List Bool} (h : group.length = 8) :
    Source.byteBits (BitVec.ofNat 8 (Source.groupValue group)) = group := by
  apply List.ext_getElem (by simp [Source.byteBits, h])
  intro j hj hj'
  have hbit : (BitVec.ofNat 8 (Source.groupValue group)).getLsbD (7 - j) = group[j] := by
    have hrev : group.length - 1 - (7 - j) = j := by omega
    rw [BitVec.getLsbD_ofNat, Source.testBit_groupValue, List.getElem?_reverse (by omega), hrev]
    simp [hj', show 7 - j < 8 by omega]
  simpa only [Source.byteBits, List.getElem_map, List.getElem_range] using hbit

theorem Source.padGroup_length {group : List Bool} (h : group.length ≤ 8) : (Source.padGroup group).length = 8 := by
  simp [Source.padGroup, h]

/-- R76: characters read as bytes are the same characters, padded with zeros up to a multiple of 8. -/
theorem Source.bytesToBits_bitsToBytes (str : List Bool) :
    Source.bytesToBits (Source.bitsToBytes str) =
      str ++ List.replicate (8 * bytesFor str.length - str.length) false := by
  fun_induction Source.bitsToBytes str
  case case1 => rfl
  case case2 b0 b1 b2 b3 b4 b5 b6 b7 rest ih =>
    have hpad : 8 * bytesFor (rest.length + 8) - (rest.length + 8) = 8 * bytesFor rest.length - rest.length := by
      unfold bytesFor; omega
    rw [Source.bytesToBits_cons, Source.byteBits_ofNat_groupValue rfl, ih, ← hpad]
    rfl
  case case3 group hnil hlong =>
    have hlt : group.length < 8 := by
      rcases group with _ | ⟨b0, _ | ⟨b1, _ | ⟨b2, _ | ⟨b3, _ | ⟨b4, _ | ⟨b5, _ | ⟨b6, _ | ⟨b7, rest⟩⟩⟩⟩⟩⟩⟩⟩
      on_goal 9 => exact (hlong b0 b1 b2 b3 b4 b5 b6 b7 rest rfl).elim
      all_goals simp
    have hone : bytesFor group.length = 1 := by
      have := List.length_pos_iff.2 hnil
      unfold bytesFor; omega
    rw [Source.bytesToBits_cons, Source.byteBits_ofNat_groupValue (Source.padGroup_length (by omega)), hone]
    simp [Source.padGroup, Source.bytesToBits]

theorem Source.bytesToBits_injective : Function.Injective Source.bytesToBits :=
  Function.LeftInverse.injective Source.bitsToBytes_bytesToBits

/-! The commands against the source's functions -/

theorem State.bitString_afterB2S_eq_bytesToBits (s : State) (sel : Sel) :
    (s.afterB2S sel).bitString sel = Source.bytesToBits s.byteSeq := by
  rw [s.bitString_afterB2S, State.byteSeq, Source.bytesToBits_map_range]
  rfl

/-- Bit `7 - j` of the byte that `S2B` makes is its position `j` of the padded string. -/
theorem State.codecByte_getLsbD (s : State) (sel : Sel) (k : Nat) {j : Nat} (h : j < 8) :
    (s.codecByte sel k).getLsbD (7 - j) = s.paddedBit sel (8 * k + j) := by
  rw [State.codecByte, packMsb_getLsbD, decide_eq_true (by omega), Bool.true_and,
    show 8 - 1 - (7 - j) = j by omega]

theorem State.map_paddedBit (s : State) (sel : Sel) (n : Nat) :
    (List.range ((s.len sel).val + n)).map (s.paddedBit sel) = s.bitString sel ++ List.replicate n false := by
  rw [List.range_add, List.map_append, List.map_map, State.bitString]
  congr 1
  · exact List.map_congr_left fun p hp => if_pos (List.mem_range.1 hp)
  · exact List.eq_replicate_iff.2 ⟨by simp, by simp [State.paddedBit]⟩

/-- Both sides are the same characters: the string, and zeros up to a multiple of 8. -/
theorem State.byteSeq_afterS2B_eq_bitsToBytes (s : State) (sel : Sel) :
    (s.afterS2B sel).byteSeq = Source.bitsToBytes (s.bitString sel) := by
  apply Source.bytesToBits_injective
  have hlen : 8 * bytesFor (s.len sel).val =
      (s.len sel).val + (8 * bytesFor (s.len sel).val - (s.len sel).val) := by unfold bytesFor; omega
  rw [Source.bytesToBits_bitsToBytes, s.byteSeq_afterS2B, Source.bytesToBits_map_range, State.bitString_length,
    ← s.map_paddedBit, ← hlen]
  refine List.map_congr_left fun p hp => ?_
  rw [s.codecByte_getLsbD sel _ (by omega), Nat.div_add_mod]

theorem State.bitwiseXor_bitString {s : State} (h : s.lenA = s.lenB) :
    Source.bitwiseXor (s.bitString .a) (s.bitString .b) = some ((List.range s.lenA.val).map s.xorBit) := by
  rw [Source.bitwiseXor, if_pos (by simp [h]), State.bitString, State.bitString, State.len_a, State.len_b, h,
    List.zipWith_map, List.zipWith_self]
  rfl

/-! The laws -/

/-- R77: where `B` is written, combining into `A` twice combines with the same positions of `B`. -/
theorem State.xorBit_afterXor_a {s : State} {p : Nat} (hp : p < s.lenA.val) (hb : (Memory.read s.b p).isSome = true) :
    (s.afterXor .a).xorBit p = s.bitAt .a p := by
  obtain ⟨v, hv⟩ := Option.isSome_iff_exists.1 hb
  have hother : (s.afterXor .a).bits .b = s.bits .b := s.read_afterXor_other .a
  have hb' : (s.afterXor .a).bitAt .b p = v := State.bitAt_of_read (by rw [hother]; exact hv)
  rw [State.xorBit, State.bitAt_of_read (s.read_afterXor .a hp), hb', State.xorBit, State.bitAt_of_read (sel := .b) hv]
  simp

/-- R75: pad bits are never read from storage, so `S2B` reads only the positions below the length. -/
theorem State.codecByte_setBits {s : State} {sel : Sel} {m : Memory Bool}
    (h : ∀ p, p < (s.len sel).val → Memory.read m p = Memory.read (s.bits sel) p) :
    (s.setBits sel m).codecByte sel = s.codecByte sel := by
  funext k
  refine packMsb_congr fun j _ => ?_
  by_cases hp : 8 * k + j < (s.len sel).val
  · simp [State.paddedBit, State.bitAt, hp, h]
  · simp [State.paddedBit, hp]

theorem State.afterS2B_setBits {s : State} {sel : Sel} {m : Memory Bool}
    (h : ∀ p, p < (s.len sel).val → Memory.read m p = Memory.read (s.bits sel) p) :
    (s.setBits sel m).afterS2B sel = (s.afterS2B sel).setBits sel m := by
  rw [State.afterS2B, State.codecByte_setBits h]
  cases sel <;> rfl

/-! The obligations -/

/-- Settles O13 (R74): `read_afterB2S` below the length, `read_fill_of_le` from it on. -/
theorem b2SWritesTheBytesBits : Obligations.B2SWritesTheBytesBits := by
  refine ⟨rfl, rfl, fun sel s => ⟨_, exec_b2s sel s, ?bits, s.afterB2S_len sel, s.afterB2S_err sel, ?rest, ?frame⟩⟩
  case bits =>
    intro k j hk hj
    rw [s.read_afterB2S sel (by omega), State.codecBit, show (8 * k + j) / 8 = k by omega,
      show (8 * k + j) % 8 = j by omega]
  case rest =>
    intro p hp
    exact exec_read_of_len_le (exec_b2s sel s) (by rwa [s.afterB2S_len])
  case frame =>
    simp [State.afterB2S, SameBits, SameBuf, SameMapper, SameOutside]

/-- Settles O14 (R75). -/
theorem s2BWritesThePackedBytes : Obligations.S2BWritesThePackedBytes := by
  refine ⟨rfl, rfl, fun sel s => ⟨_, exec_s2b sel s, ?bytes, s.afterS2B_bufLen sel, rfl, ?rest, ?frame⟩⟩
  case bytes => exact fun k hk => ⟨_, s.read_afterS2B sel hk, fun j hj => s.codecByte_getLsbD sel k hj⟩
  case rest => exact fun k hk => Memory.read_fill_of_le _ _ hk
  case frame => simp [State.afterS2B, SameBits, SameMapper, SameOutside]

/-- Settles O15 (R77). -/
theorem xorCombinesEqualLengths : Obligations.XorCombinesEqualLengths := by
  refine ⟨rfl, rfl, fun sel s => ⟨fun h => exec_xor_of_ne h sel, fun h => ⟨_, exec_xor h sel,
    fun p => s.read_afterXor sel, s.afterXor_len sel sel, rfl, ?rest, ?frame⟩⟩⟩
  case rest =>
    intro p hp
    refine exec_read_of_len_le (exec_xor h sel) ?_
    rw [s.afterXor_len]
    cases sel <;> simpa [← h] using hp
  case frame => simp [State.afterXor, SameBits, SameBuf, SameMapper, SameOutside]

/-- Settles O24 (R74): `bitString_afterB2S_eq_bytesToBits`. -/
theorem b2SComputesTheSourcesBytesToBits : Obligations.B2SComputesTheSourcesBytesToBits :=
  fun sel s => ⟨_, exec_b2s sel s, s.bitString_afterB2S_eq_bytesToBits sel⟩

/-- Settles O25 (R75): `byteSeq_afterS2B_eq_bitsToBytes`. -/
theorem s2BComputesTheSourcesBitsToBytes : Obligations.S2BComputesTheSourcesBitsToBytes :=
  fun sel s => ⟨_, exec_s2b sel s, s.byteSeq_afterS2B_eq_bitsToBytes sel⟩

/-- Settles O26 (R77): on equal lengths both sides are the positions combined, else both fail. -/
theorem xorComputesTheSourcesBitwiseXor : Obligations.XorComputesTheSourcesBitwiseXor := by
  intro sel s
  by_cases h : s.lenA = s.lenB
  · refine ⟨_, exec_xor h sel, ?_⟩
    rw [State.bitwiseXor_bitString h, State.bitString_afterXor h]
    rfl
  · refine ⟨_, exec_xor_of_ne h sel, ?_⟩
    rw [Source.bitwiseXor, if_neg (by simpa [Fin.val_inj] using h)]
    rfl

/-- Settles O27 (R76): the two commands are the source's functions, whose round trips are `bitsToBytes_bytesToBits` and
`bytesToBits_bitsToBytes`. -/
theorem codecRoundTrips : Obligations.CodecRoundTrips := by
  intro sel s
  refine ⟨⟨_, _, exec_b2s sel s, exec_s2b sel _, ?bytes, ?bufLen⟩,
    ⟨_, _, exec_s2b sel s, exec_b2s sel _, ?len, ?string⟩⟩
  case bytes =>
    rw [State.byteSeq_afterS2B_eq_bitsToBytes, State.bitString_afterB2S_eq_bytesToBits, Source.bitsToBytes_bytesToBits]
  case bufLen =>
    apply Fin.ext
    rw [State.afterS2B_bufLen, State.afterB2S_len, bytesFor]
    omega
  case len => rw [State.afterB2S_len, State.afterS2B_bufLen, bytesFor]
  case string =>
    have hlen : (((s.afterS2B sel).afterB2S sel).len sel).val = 8 * bytesFor (s.len sel).val := by
      rw [State.afterB2S_len, State.afterS2B_bufLen]
    have hstr : ((s.afterS2B sel).afterB2S sel).bitString sel =
        s.bitString sel ++ List.replicate (8 * bytesFor (s.len sel).val - (s.len sel).val) false := by
      rw [State.bitString_afterB2S_eq_bytesToBits, State.byteSeq_afterS2B_eq_bitsToBytes,
        Source.bytesToBits_bitsToBytes, State.bitString_length]
    refine ⟨by rw [hlen, hstr], fun h8 => ?_⟩
    have hfull : 8 * bytesFor (s.len sel).val = (s.len sel).val := by unfold bytesFor; omega
    exact ⟨by simp [hstr, hfull], Fin.ext (hlen.trans hfull)⟩

/-- Settles O28 (R78): each law compares `xorBit` position by position. -/
theorem xorLaws : Obligations.XorLaws := by
  intro s
  refine ⟨fun h => ?agree, fun h heq => ?zeros, fun h hb => ?twice, fun h sel => exec_xor_of_ne h sel⟩
  case agree =>
    exact ⟨_, _, exec_xor h .a, exec_xor h .b, by rw [State.bitString_afterXor h, State.bitString_afterXor h]⟩
  case zeros =>
    have hzero : (List.range s.lenA.val).map s.xorBit = List.replicate s.lenA.val false := by
      rw [State.bitString, State.bitString, State.len_a, State.len_b, ← h, List.map_inj_left] at heq
      exact List.eq_replicate_iff.2 ⟨by simp, by simpa [State.xorBit] using heq⟩
    exact ⟨_, _, exec_xor h .a, (State.bitString_afterXor h .a).trans hzero, exec_xor h .b,
      (State.bitString_afterXor h .b).trans hzero⟩
  case twice =>
    refine ⟨_, _, exec_xor h .a, exec_xor (s := s.afterXor .a) h .a, ?_⟩
    rw [State.bitString_afterXor (s := s.afterXor .a) h]
    exact List.map_congr_left fun p hp =>
      State.xorBit_afterXor_a (List.mem_range.1 hp) (hb p (h ▸ List.mem_range.1 hp))

/-- Settles O38 (R25, R75): `afterS2B_setBits`. -/
theorem s2BIgnoresStoragePastTheLength : Obligations.S2BIgnoresStoragePastTheLength :=
  fun sel s _ h => ⟨_, exec_s2b sel s, (exec_s2b sel _).trans (congrArg _ (State.afterS2B_setBits h))⟩

end Sys2Proof.Machine
end

section
/-! `CRC_PKT` and the byte-by-byte sequence (R80, R83 to R85): the packet loop against the source's, against one command
per byte, and against the loop that counts its shifts. -/

namespace Sys2Proof.Machine

/-! The packet loop as the source's -/

theorem Source.crcLoop_registerBytes (r : Half) (bs : List Byte) :
    Source.crcLoop (Source.registerBytes r) bs = Source.registerBytes (crcBytes r bs) := by
  fun_induction crcBytes r bs
  case case1 => rfl
  case case2 => exact crcStep_registerBytes _ _ 1
  case case3 r b c bs ih => rw [Source.crcLoop, crcStep_registerBytes, ih]

/-- R80, R83: from `0xFFFF`, whose two bytes are the source's initial register. -/
theorem calcCrc_registerBytes {bs : List Byte} (h : bs ≠ []) :
    Source.calcCrc bs = some (Source.registerBytes (calcCrc bs)) := by
  cases bs with
  | nil => exact absurd rfl h
  | cons b bs => exact congrArg some (Source.crcLoop_registerBytes Config.crcInit (b :: bs))

theorem State.byteSeq_ne_nil_iff {s : State} : s.byteSeq ≠ [] ↔ s.bufLen.val ≠ 0 := by
  rw [← s.byteSeq_length, Ne, Ne, List.length_eq_zero_iff]

/-! The packet loop as commands -/

/-- R84: `CRC_STEP` with 8 for each byte and 1 for the last runs the packet loop on `CRC`. -/
theorem execAll_crcSteps (first : List Byte) (last : Byte) (s : State) :
    execAll (first.map (fun b => Instr.crcStep b 8#4) ++ [.crcStep last 1#4]) s =
      .next ((s.setCrc (crcBytes s.crc (first ++ [last]))).setErr .none) := by
  induction first generalizing s with
  | nil => rfl
  | cons b first ih =>
    rw [List.map_cons, List.cons_append, execAll, exec_crcStep_of_le (by decide)]
    simp only [ih, List.cons_append, crcBytes_cons (List.append_ne_nil_of_right_ne_nil first (List.cons_ne_nil last []))]
    rfl

/-! The loops that count their shifts -/

theorem crcIterateCounted_eq (n : Nat) (w : Half) (c : Nat) : crcIterateCounted n (w, c) = (crcIterate n w, c + n) := by
  induction n generalizing w c with
  | zero => rfl
  | succ n ih => rw [crcIterateCounted, ih, crcIterate, Nat.add_right_comm, Nat.add_assoc]

theorem crcStepCounted_eq (r : Half) (c : Nat) (b : Byte) (n : Nat) :
    crcStepCounted (r, c) b n = (crcStep r b n, c + n) :=
  crcIterateCounted_eq n _ c

/-- The shifts that the loop makes on a packet of `n` bytes (R85). -/
def packetShifts (n : Nat) : Nat := if n = 0 then 0 else 8 * (n - 1) + 1

theorem crcBytesCounted_eq (r : Half) (c : Nat) (bs : List Byte) :
    crcBytesCounted (r, c) bs = (crcBytes r bs, c + packetShifts bs.length) := by
  fun_induction crcBytes r bs generalizing c
  case case1 => rfl
  case case2 => exact crcStepCounted_eq _ c _ 1
  case case3 r b d bs ih =>
    rw [crcBytesCounted, crcStepCounted_eq, ih]
    simp [packetShifts]
    omega

/-! The obligations -/

/-- Settles O18 (R83). -/
theorem crcPktComputesThePacketCrc : Obligations.CrcPktComputesThePacketCrc := by
  refine ⟨rfl, fun s => ⟨exec_crcPkt_of_empty, fun h => ⟨_, exec_crcPkt_of_bytes h, rfl, rfl, ?frame⟩⟩⟩
  case frame => simp [SameBuf, SameBits, SameMapper, SameOutside]

/-- Settles O21 (R84): `execAll_crcSteps` from the register that `CRC_INIT` leaves. -/
theorem byteSequenceEqualsCrcPkt : Obligations.ByteSequenceEqualsCrcPkt := by
  intro first last s
  refine ⟨_, (execAll_crcSteps first last _ : execAll _ ((s.setCrc Config.crcInit).setErr .none) = _), rfl, ?_⟩
  intro u hu
  have hne : u.bufLen.val ≠ 0 := State.byteSeq_ne_nil_iff.1 (by simp [hu])
  exact ⟨_, exec_crcPkt_of_bytes hne, congrArg calcCrc hu⟩

/-- Settles O22 (R83, R80): `calcCrc_registerBytes` on a packet; on an empty sequence both fail. -/
theorem crcPktComputesTheSourcesCalcCrc : Obligations.CrcPktComputesTheSourcesCalcCrc := by
  intro s
  by_cases h : s.bufLen.val = 0
  · have hnil : s.byteSeq = [] := by rw [State.byteSeq, h]; rfl
    exact ⟨_, exec_crcPkt_of_empty h, by rw [hnil]; rfl⟩
  · exact ⟨_, exec_crcPkt_of_bytes h, calcCrc_registerBytes (State.byteSeq_ne_nil_iff.2 h)⟩

/-- Settles O23 (R85): the counting loops are the plain ones with the count beside them. -/
theorem crcPktIterationCount : Obligations.CrcPktIterationCount := by
  refine ⟨fun d n s hn => ⟨_, exec_crcStep_of_le hn d s, ?step⟩, fun s h => ⟨_, exec_crcPkt_of_bytes h, ?packet, by omega⟩,
    fun p => ?value⟩
  case step => rw [crcStepCounted_eq, Nat.zero_add]; rfl
  case packet =>
    rw [calcCrcCounted, crcBytesCounted_eq, Nat.zero_add, State.byteSeq_length, packetShifts, if_neg h]
    rfl
  case value => rw [calcCrcCounted, crcBytesCounted_eq, calcCrc]

end Sys2Proof.Machine
end

section
/-! Free values (R27, R107, U1): a written element reads the same at every draw, so a command or a window read that meets
only written elements is the same at every draw. -/

namespace Sys2Proof.Machine

/-! Written elements -/

theorem State.byteAt_congr {s t : State} {k : Nat} (h : Memory.read t.buf k = Memory.read s.buf k)
    (hw : (Memory.read s.buf k).isSome = true) : t.byteAt k = s.byteAt k := by
  obtain ⟨v, hv⟩ := Option.isSome_iff_exists.1 hw
  rw [State.byteAt_of_read hv, State.byteAt_of_read (h.trans hv)]

theorem State.bitAt_congr {s t : State} {sel : Sel} {p : Nat}
    (h : Memory.read (t.bits sel) p = Memory.read (s.bits sel) p)
    (hw : (Memory.read (s.bits sel) p).isSome = true) : t.bitAt sel p = s.bitAt sel p := by
  obtain ⟨v, hv⟩ := Option.isSome_iff_exists.1 hw
  rw [State.bitAt_of_read hv, State.bitAt_of_read (h.trans hv)]

theorem Memory.fill_congr {α : Type} {m : Memory α} {start n : Nat} {f g : Nat → α} (h : ∀ i < n, f i = g i) :
    Memory.fill m start f n = Memory.fill m start g n := by
  induction n with
  | zero => rfl
  | succ n ih => rw [Memory.fill, Memory.fill, ih fun i hi => h i (by omega), h n (by omega)]

/-! The same state at another draw number -/

/-- The state with `d` draws made. -/
def State.atDraw (s : State) (d : Nat) : State := { s with draws := d }

section

variable {s : State} {sel : Sel}

theorem State.byteAt_atDraw (h : s.BytesWritten) (d : Nat) {k : Nat} (hk : k < s.bufLen.val) :
    (s.atDraw d).byteAt k = s.byteAt k :=
  State.byteAt_congr rfl (h k hk)

theorem State.bitAt_atDraw (h : s.StringWritten sel) (d : Nat) {p : Nat} (hp : p < (s.len sel).val) :
    (s.atDraw d).bitAt sel p = s.bitAt sel p := by
  refine State.bitAt_congr ?_ (h p hp)
  cases sel <;> rfl

theorem State.byteSeq_atDraw (h : s.BytesWritten) (d : Nat) : (s.atDraw d).byteSeq = s.byteSeq :=
  List.map_congr_left fun _ hk => State.byteAt_atDraw h d (List.mem_range.1 hk)

theorem State.codecBit_atDraw (h : s.BytesWritten) (d : Nat) {p : Nat} (hp : p < 8 * s.bufLen.val) :
    (s.atDraw d).codecBit p = s.codecBit p := by
  rw [State.codecBit, State.byteAt_atDraw h d (by omega), State.codecBit]

theorem State.codecByte_atDraw (h : s.StringWritten sel) (d : Nat) : (s.atDraw d).codecByte sel = s.codecByte sel := by
  have hlen : (s.atDraw d).len sel = s.len sel := by cases sel <;> rfl
  funext k
  refine packMsb_congr fun j _ => ?_
  rw [State.paddedBit, State.paddedBit, hlen]
  split
  · rename_i hp; exact State.bitAt_atDraw h d hp
  · rfl

theorem State.xorBit_atDraw (hl : s.lenA = s.lenB) (ha : s.StringWritten .a) (hb : s.StringWritten .b) (d : Nat) {p : Nat}
    (hp : p < s.lenA.val) : (s.atDraw d).xorBit p = s.xorBit p := by
  rw [State.xorBit, State.bitAt_atDraw ha d hp, State.bitAt_atDraw hb d (show p < s.lenB.val from hl ▸ hp), State.xorBit]

theorem State.afterB2S_atDraw (h : s.BytesWritten) (d : Nat) (sel : Sel) :
    (s.atDraw d).afterB2S sel = (s.afterB2S sel).atDraw (d + 1) := by
  have hfill : Memory.fill ((s.atDraw d).bits sel) 0 (s.atDraw d).codecBit (8 * (s.atDraw d).bufLen.val) =
      Memory.fill ((s.atDraw d).bits sel) 0 s.codecBit (8 * s.bufLen.val) :=
    Memory.fill_congr fun _ => State.codecBit_atDraw h d
  unfold State.afterB2S
  rw [hfill]
  cases sel <;> rfl

theorem State.afterS2B_atDraw (h : s.StringWritten sel) (d : Nat) :
    (s.atDraw d).afterS2B sel = (s.afterS2B sel).atDraw (d + 1) := by
  unfold State.afterS2B
  rw [State.codecByte_atDraw h d]
  cases sel <;> rfl

theorem State.afterXor_atDraw (hl : s.lenA = s.lenB) (ha : s.StringWritten .a) (hb : s.StringWritten .b) (d : Nat)
    (sel : Sel) : (s.atDraw d).afterXor sel = (s.afterXor sel).atDraw (d + 1) := by
  have hfill : Memory.fill ((s.atDraw d).bits sel) 0 (s.atDraw d).xorBit (s.atDraw d).lenA.val =
      Memory.fill ((s.atDraw d).bits sel) 0 s.xorBit s.lenA.val :=
    Memory.fill_congr fun _ => State.xorBit_atDraw hl ha hb d
  unfold State.afterXor
  rw [hfill]
  cases sel <;> rfl

/-- At another draw number a command that reads only written storage leaves the same state, the draws apart. -/
theorem exec_atDraw {i : Instr} (h : ReadsOnlyWritten i s) (d : Nat) :
    ∃ t d', exec i s = .next t ∧ exec i (s.atDraw d) = .next (t.atDraw d') := by
  cases i with
  | nop => exact ⟨_, d, exec_nop s, rfl⟩
  | f2c => exact ⟨_, d, exec_f2c s, rfl⟩
  | c2f => exact ⟨_, d, exec_c2f s, rfl⟩
  | b2s sel => exact ⟨_, d + 1, exec_b2s sel s, congrArg _ (State.afterB2S_atDraw h d sel)⟩
  | s2b sel => exact ⟨_, d + 1, exec_s2b sel s, congrArg _ (State.afterS2B_atDraw h d)⟩
  | xor sel =>
    by_cases hl : s.lenA = s.lenB
    · obtain ⟨ha, hb⟩ := h hl
      exact ⟨_, d + 1, exec_xor hl sel,
        (exec_xor (s := s.atDraw d) hl sel).trans (congrArg _ (State.afterXor_atDraw hl ha hb d sel))⟩
    · exact ⟨_, d, exec_xor_of_ne hl sel, exec_xor_of_ne (s := s.atDraw d) hl sel⟩
  | crcInit => exact ⟨_, d, exec_crcInit s, rfl⟩
  | crcStep data n =>
    by_cases hn : n ≤ maxBitCount
    · exact ⟨_, d, exec_crcStep_of_le hn data s, exec_crcStep_of_le hn data (s.atDraw d)⟩
    · exact ⟨_, d, exec_crcStep_of_gt hn data s, exec_crcStep_of_gt hn data (s.atDraw d)⟩
  | crcPkt =>
    by_cases hl : s.bufLen.val = 0
    · exact ⟨_, d, exec_crcPkt_of_empty hl, exec_crcPkt_of_empty (s := s.atDraw d) hl⟩
    · refine ⟨_, d + 1, exec_crcPkt_of_bytes hl, ?_⟩
      rw [exec_crcPkt_of_bytes (s := s.atDraw d) hl, State.byteSeq_atDraw h d]
      rfl

end

/-! Window reads -/

theorem bufWord_congr {s t : State} {k : Nat} (h : t.buf = s.buf)
    (hw : ∀ i < 4, (Memory.read s.buf (4 * k + i)).isSome = true) : bufWord t k = bufWord s k := by
  have hbyte : ∀ i < 4, t.byteAt (4 * k + i) = s.byteAt (4 * k + i) := fun i hi =>
    State.byteAt_congr (by rw [h]) (hw i hi)
  have hfirst : t.byteAt (4 * k) = s.byteAt (4 * k) := hbyte 0 (by decide)
  rw [bufWord, hfirst, hbyte 1 (by decide), hbyte 2 (by decide), hbyte 3 (by decide), bufWord]

theorem bitWord_congr {s t : State} {sel : Sel} {k : Nat} (h : t.bits sel = s.bits sel)
    (hw : ∀ j < 32, (Memory.read (s.bits sel) (32 * k + j)).isSome = true) : bitWord t sel k = bitWord s sel k :=
  packMsb_congr fun j hj => State.bitAt_congr (by rw [h]) (hw j hj)

/-! The obligations -/

/-- Settles O39 (R27, R107): `exec_atDraw`. -/
theorem writtenStorageNeedsNoFreeValue : Obligations.WrittenStorageNeedsNoFreeValue := by
  intro i s d h
  obtain ⟨t, d', ht, ht'⟩ := exec_atDraw h d
  exact ⟨t, t.atDraw d', ht, ht', rfl⟩

/-- Settles O50 (R35): only a window read meets storage, and what it meets is written. -/
theorem readsAreStable : Obligations.ReadsAreStable := by
  intro off s d r q hbuf hbits
  rw [memRead, memRead]
  cases ht : target off with
  | bufWindow k => exact bufWord_congr rfl fun i => hbuf k i ht
  | bitWindow sel k => exact bitWord_congr (by cases sel <;> rfl) fun j => hbits sel k j ht
  | len sel => cases sel <;> rfl
  | _ => rfl

end Sys2Proof.Machine
end

section
/-! Host reads and the windows (R35 to R37, R41, R43, R48): the read map, the packing of window words, which accesses are
accepted, and the offsets of host addresses. -/

namespace Sys2Proof.Machine

/-! The read map -/

theorem memRead_of_target {off : Offset} {g : Target} (h : target off = g) (s : State) :
    memRead off s = readTarget s g := by
  rw [memRead, h]

/-- A read of another width or alignment is a bus error, whatever its offset reaches (R91). -/
theorem serve_read_rejected {width : AccessWidth} {off : Offset} {s : State}
    (h : off.toNat % 4 ≠ 0 ∨ width ≠ .w32) (hr : s.inReset = false) (master : Nat) :
    serve master (.read width off) s = .fault (.busError off) := by
  simp [serve, hr, accepts_eq_false_iff.2 h]

/-! The BUF window -/

/-- R36: the word as its four lanes shifted to their places. -/
theorem append_eq_or_shiftLeft (b0 b1 b2 b3 : Byte) :
    b0 ++ b1 ++ b2 ++ b3 = (b0.setWidth 32 <<< 24) ||| (b1.setWidth 32 <<< 16) ||| (b2.setWidth 32 <<< 8) |||
      b3.setWidth 32 := by
  have h0 := b0.isLt
  have h1 := b1.isLt
  have h2 := b2.isLt
  have h3 := b3.isLt
  apply BitVec.eq_of_toNat_eq
  calc (b0 ++ b1 ++ b2 ++ b3).toNat
      = b0.toNat <<< 24 ||| b1.toNat <<< 16 ||| b2.toNat <<< 8 ||| b3.toNat := by
        simp only [BitVec.toNat_append, Nat.shiftLeft_or_distrib, ← Nat.shiftLeft_add]
    _ = _ := by
        simp (disch := omega) [Nat.mod_eq_of_lt]

/-- Bit `31 - j` of a BUF window word is bit `7 - j % 8` of its byte `j / 8` (R36). -/
theorem wordBit_bufWord (s : State) (k : Nat) {j : Nat} (h : j < 32) :
    wordBit (bufWord s k) j = (s.byteAt (4 * k + j / 8)).getLsbD (7 - j % 8) := by
  simp only [wordBit, bufWord, BitVec.getLsbD_append]
  split_ifs
  · rw [show j / 8 = 3 by omega, show 31 - j = 7 - j % 8 by omega]
  · rw [show j / 8 = 2 by omega, show 31 - j - 8 = 7 - j % 8 by omega]
  · rw [show j / 8 = 1 by omega, show 31 - j - 8 - 8 = 7 - j % 8 by omega]
  · rw [show j / 8 = 0 by omega, show 31 - j - 8 - 8 - 8 = 7 - j % 8 by omega, Nat.add_zero]

/-! The bit windows -/

theorem target_bitWindow {sel : Sel} {off : Offset} {k : Nat} (hk : k < 16)
    (hoff : sel = .a ∧ off.toNat = 0x140 + 4 * k ∨ sel = .b ∧ off.toNat = 0x180 + 4 * k) :
    target off = .bitWindow sel ⟨k, hk⟩ := by
  have hnat : off = BitVec.ofNat 12 off.toNat := by simp
  rcases hoff with ⟨rfl, hoff⟩ | ⟨rfl, hoff⟩ <;> rw [hnat, hoff]
  · exact target_bitWindow_a ⟨k, hk⟩
  · exact target_bitWindow_b ⟨k, hk⟩

theorem read_writeBitWord_inside (s : State) (sel : Sel) (k : Nat) (v : Word) {j : Nat} (h : j < 32) :
    Memory.read ((writeBitWord sel k v s).bits sel) (32 * k + j) = some (wordBit v j) := by
  rw [read_writeBitWord, if_pos (by omega), Nat.add_sub_cancel_left]

/-- R37: a read after a write gives the word written. -/
theorem bitWord_writeBitWord (s : State) (sel : Sel) (k : Nat) (v : Word) :
    bitWord (writeBitWord sel k v s) sel k = v := by
  have hbits : ∀ j < 32, (writeBitWord sel k v s).bitAt sel (32 * k + j) = wordBit v j := fun j hj =>
    State.bitAt_of_read (read_writeBitWord_inside s sel k v hj)
  exact (packMsb_congr hbits).trans (packMsb_wordBit v)

/-! The obligations -/

/-- Settles O40 (R43): an accepted access completes by `serve_completes`. -/
theorem onlyAlignedWordsAreAccepted : Obligations.OnlyAlignedWordsAreAccepted := by
  intro master width off v s hr
  split
  · rename_i h
    obtain ⟨rfl, ha⟩ := h
    exact ⟨serve_completes (e := .read .w32 off) (accepts_of_aligned ha) master s,
      serve_completes (e := .write .w32 off v) (accepts_of_aligned ha) master s⟩
  · rename_i h
    have hrej : off.toNat % 4 ≠ 0 ∨ width ≠ .w32 := (Decidable.not_and_iff_not_or_not.1 h).symm
    exact ⟨serve_read_rejected hrej hr master, serve_write_rejected hrej hr master v⟩

/-- Settles O41 (R48): a register by `memRead_register`, a window by its `target` lemma, a reserved offset by
`target_of_reserved`. -/
theorem memReadFollowsTheRegisterMap : Obligations.MemReadFollowsTheRegisterMap := by
  intro s
  refine ⟨memRead_register .cmd s, memRead_register .status s, memRead_register .crc s, memRead_register .opa s,
    memRead_register .res s, memRead_register .bufLen s, memRead_register .lenA s, memRead_register .lenB s,
    ?bufWindow, ?aWindow, ?bWindow, ?reserved, ?port⟩
  case bufWindow => exact fun k hk => memRead_of_target (target_bufWindow ⟨k, hk⟩) s
  case aWindow => exact fun k hk => memRead_of_target (target_bitWindow_a ⟨k, hk⟩) s
  case bWindow => exact fun k hk => memRead_of_target (target_bitWindow_b ⟨k, hk⟩) s
  case reserved => exact fun off _ hoff => memRead_of_target (target_of_reserved hoff) s
  case port =>
    intro master width off hr
    split
    · rename_i h; exact serve_read_rejected h hr master
    · rename_i h
      obtain ⟨ha, hw⟩ := not_or.1 h
      obtain rfl := not_not.1 hw
      exact serve_read (not_not.1 ha) hr master

/-- Settles O46 (R28, R30): `STATUS` is the 4-bit code widened. -/
theorem statusReadsTheErrCode : Obligations.StatusReadsTheErrCode := by
  have hread (s : State) : memRead 0x004#12 s = s.err.code.setWidth 32 := memRead_register .status s
  refine ⟨fun s i hi => ?high, fun s => ?code⟩
  case high => rw [hread, BitVec.getLsbD_setWidth, BitVec.getLsbD_of_ge _ _ hi, Bool.and_false]
  case code =>
    rw [hread]
    cases s.err <;> rfl

/-- Settles O47 (R36). -/
theorem bufWindowPacksBytes : Obligations.BufWindowPacksBytes := by
  intro s k hk
  have ht := target_bufWindow ⟨k, hk⟩
  refine ⟨?read, fun v => ⟨writeBufWord k v s, memWrite_of_target ht v s, ?b0, ?b1, ?b2, ?b3, ?rest, rfl⟩⟩
  case read => exact (memRead_of_target ht s).trans (append_eq_or_shiftLeft _ _ _ _)
  case rest =>
    intro q hq
    rw [read_writeBufWord, if_neg (by omega)]
  all_goals
    rw [read_writeBufWord, if_pos (by omega)]
    simp [lane]

/-- Settles O48 (R37). -/
theorem bitWindowsPackPositions : Obligations.BitWindowsPackPositions := by
  intro s sel k off hk hoff
  have ht := target_bitWindow hk hoff
  refine ⟨?read, fun v => ⟨writeBitWord sel k v s, memWrite_of_target ht v s,
    fun j => read_writeBitWord_inside s sel k v, ?rest, ?frame, ?readBack⟩⟩
  case read =>
    intro j hj
    rw [memRead_of_target ht, readTarget, bitWord, packMsb_getLsbD, decide_eq_true (by omega), Bool.true_and,
      show 32 - 1 - (31 - j) = j by omega]
  case rest =>
    intro p hp
    rw [read_writeBitWord, if_neg (by omega)]
  case frame => rw [writeBitWord, State.setBits_bits_same]
  case readBack => exact (memRead_of_target ht _).trans (bitWord_writeBitWord s sel k v)

/-- Settles O49 (R37, R36, R74): position `32k + j` that `B2S` leaves is bit `31 - j` of the BUF window word. -/
theorem b2SKeepsWindowWords : Obligations.B2SKeepsWindowWords := by
  refine fun sel s => ⟨_, exec_b2s sel s, fun k hk => ?_⟩
  rw [← packMsb_wordBit (bufWord s k)]
  refine packMsb_congr fun j hj => ?_
  rw [State.bitAt_of_read (s.read_afterB2S sel (by omega)), wordBit_bufWord s k hj, State.codecBit,
    show (32 * k + j) / 8 = 4 * k + j / 8 by omega, show (32 * k + j) % 8 = j % 8 by omega]

/-- Settles O51 (R41, U13): with `BASE` a multiple of 4096 opaque, an offset is the address less `BASE`. -/
theorem apertureOffsets : Obligations.ApertureOffsets := by
  refine ⟨Nat.mul_mod_right _ _, fun off => ?own, fun addr off h => ?inside, fun addr h => ?outside⟩
  case own =>
    have hlt : off.toNat < Config.aperture := off.isLt
    rw [apertureOffset, hostAddress, if_pos (by omega), Nat.add_sub_cancel_left, BitVec.ofNat_toNat, BitVec.setWidth_eq]
  case inside =>
    rw [apertureOffset] at h
    split at h
    · rename_i hin
      obtain ⟨hbase, htop⟩ : Config.base ≤ addr ∧ addr < Config.base + 4096 := hin
      cases h
      rw [BitVec.toNat_ofNat]
      exact ⟨(Nat.mod_eq_of_lt (by omega)).symm, hbase⟩
    · cases h
  case outside => rw [apertureOffset, if_neg (by simp only [Config.aperture]; omega)]

end Sys2Proof.Machine
end

section
/-! The step (R29, R50, R52, R55, R100): which event it takes and when it takes none, the command a `CMD` write runs, and the
edges of the reset input (R99, R101). -/

namespace Sys2Proof.Machine

/-! Which event is taken -/

theorem waiting_eq_nil_iff {j : Nat} {q : List (List BusEvent)} : waiting j q = [] ↔ ∀ es ∈ q, es = [] := by
  fun_induction waiting j q <;> simp [*]

/-- The agents listed as waiting have an event to take. -/
theorem takeFrom_of_mem_waiting {j k : Nat} {q : List (List BusEvent)} (h : k ∈ waiting j q) :
    ∃ i p, k = j + i ∧ takeFrom i q = some p := by
  fun_induction waiting j q
  case case1 => cases h
  case case2 j rest ih =>
    obtain ⟨i, p, rfl, hp⟩ := ih h
    exact ⟨i + 1, _, by omega, by rw [takeFrom, hp, Option.map_some]⟩
  case case3 j e es rest ih =>
    rcases List.mem_cons.1 h with rfl | h
    · exact ⟨0, _, rfl, rfl⟩
    · obtain ⟨i, p, rfl, hp⟩ := ih h
      exact ⟨i + 1, _, by omega, by rw [takeFrom, hp, Option.map_some]⟩

/-- Whatever the draw, one of the waiting agents is picked. -/
theorem arbitrate_mem (draw : Nat) {l : List Nat} (h : l ≠ []) : ∃ j ∈ l, arbitrate draw l = some j := by
  fun_cases arbitrate draw l
  case case1 => exact absurd rfl h
  case case2 j => exact ⟨j, List.mem_singleton_self j, rfl⟩
  case case3 j k rest =>
    have hlt : Config.arbiter draw % (rest.length + 2) < (j :: k :: rest).length := Nat.mod_lt _ (by omega)
    exact ⟨_, List.getElem_mem hlt, List.getElem?_eq_getElem hlt⟩

theorem nextEvent_eq_none_iff {s : State} : nextEvent s = none ↔ ∀ q ∈ s.streams, q = [] := by
  rw [← waiting_eq_nil_iff (j := 0)]
  constructor
  · intro h
    by_contra hne
    obtain ⟨j, hj, harb⟩ := arbitrate_mem s.draws hne
    obtain ⟨i, p, rfl, hp⟩ := takeFrom_of_mem_waiting hj
    rw [Nat.zero_add] at harb
    rw [nextEvent, harb, Option.bind_some, hp] at h
    cases h
  · intro h
    rw [nextEvent, h]
    rfl

theorem step_of_none {s : State} (h : nextEvent s = none) : step s = .next s := by
  rw [step, serveNext, h]

theorem step_of_some {s s' : State} {j : Nat} {e : BusEvent} (h : nextEvent s = some (j, e, s')) :
    step s = serve j e s' := by
  rw [step, serveNext, h]

/-- The only agent with events waiting is served, without a draw among several. -/
theorem nextEvent_of_single {s : State} {e : BusEvent} {es : List BusEvent} (h : s.streams = [e :: es]) :
    nextEvent s = some (0, e, { s with streams := [es], draws := s.draws + 1 }) := by
  rw [nextEvent, h]
  rfl

/-! A command write -/

theorem serve_cmdWrite {s : State} {v : Word} {i : Instr} (hr : s.inReset = false) (hd : decode v = .instr i)
    (master : Nat) : serve master (cmdWrite v) s = answerWrite master (exec i s) := by
  have hwrite : memWrite 0#12 v s = exec i s := (memWrite_register .cmd v s).trans (execute_of_instr hd s)
  have hacc : accepts .w32 0#12 = true := accepts_of_aligned rfl
  rw [cmdWrite, serve, hr, hacc, hwrite]
  rfl

/-- The step of a single agent that writes a decodable word to `CMD`. -/
theorem step_of_cmdWrite {s : State} {v : Word} {i : Instr} {es : List BusEvent} (hs : s.streams = [cmdWrite v :: es])
    (hr : s.inReset = false) (hd : decode v = .instr i) :
    step s = answerWrite 0 (exec i { s with streams := [es], draws := s.draws + 1 }) := by
  rw [step_of_some (nextEvent_of_single hs)]
  exact serve_cmdWrite (by exact hr) hd 0

theorem decode_of_decodeTableWord {nbits w : Nat} {i : Instr} (h : decodeTableWord nbits w = some i) :
    decode (tableWord nbits w) = .instr i := by
  unfold decodeTableWord at h
  split at h
  · cases h
  · split at h
    · rename_i i' hd
      cases h
      exact hd
    · cases h

/-! The obligations -/

/-- Settles O54 (R29, R50, R55): `serve_cmdWrite` on the event that the step takes. -/
theorem stepRunsTheDecodedCommand : Obligations.StepRunsTheDecodedCommand := by
  refine ⟨fun s s' j v i hn hr hd => (step_of_some hn).trans (serve_cmdWrite hr hd j),
    fun s v i es => step_of_cmdWrite, fun s nbits w i h => ?_⟩
  exact step_of_cmdWrite (s := s.withFetchWord nbits w) rfl rfl (decode_of_decodeTableWord h)

/-- Settles O55 (R50, R52, R100): no event is taken exactly when none waits, and `nextEvent_some` says which one is. -/
theorem stepServesTheOldestEventOfOneAgent : Obligations.StepServesTheOldestEventOfOneAgent := by
  refine fun s => ⟨fun h => step_of_none (nextEvent_eq_none_iff.2 h), fun ⟨q, hq, hne⟩ => ?_⟩
  cases hn : nextEvent s with
  | none => exact absurd (nextEvent_eq_none_iff.1 hn q hq) hne
  | some p =>
    obtain ⟨j, e, s'⟩ := p
    obtain ⟨es, hj, rfl⟩ := nextEvent_some hn
    exact ⟨j, e, es, hj, step_of_some hn⟩

/-- Settles O53 (R99, R101): the two edges compute, and under asserted reset `serve` looks at no access. -/
theorem resetFromEveryState : Obligations.ResetFromEveryState :=
  fun _ s => ⟨s.assertReset, s.assertReset.releaseReset, rfl, rfl, fun _ _ _ _ => ⟨rfl, rfl⟩, rfl, rfl⟩

end Sys2Proof.Machine
end
